-- ==== Sys2Proof/Word.lean ====
section
/-! DEFINITION. The three widths the hardware uses (00_scope.md R4, R7; 30_encoding.md R51). -/

namespace Sys2Proof

/-- A 32-bit pattern: a register, an ALU operand or result, a data word, an instruction word or the
pc (00_scope.md R7: the pattern is one, the signed or unsigned reading is chosen by the operation). -/
abbrev Word := BitVec 32

/-- A 5-bit register index, used directly as the register number (10_state.md R14). -/
abbrev RegIdx := BitVec 5

/-- The 16-bit immediate field (30_encoding.md R51). -/
abbrev Imm := BitVec 16

end Sys2Proof
end

