-- ==== Sys2Proof/Syntax.lean ====
section
/-! DEFINITION. The instruction set: one constructor per row of spec/opcode_table.json
(30_encoding.md R57). -/

namespace Sys2Proof

/-- The nine instructions, operands in the order of the assembly syntax (30_encoding.md R61).
The fields the hardware ignores, shamt of the R-type rows and rs of LUI, are not operands
(30_encoding.md R56, R60). DEDUCED (log 16, safe). -/
inductive Instr where
  | add (rd rs rt : RegIdx)
  | and (rd rs rt : RegIdx)
  | slt (rd rs rt : RegIdx)
  | addi (rt rs : RegIdx) (imm : Imm)
  | lui (rt : RegIdx) (imm : Imm)
  | ori (rt rs : RegIdx) (imm : Imm)
  /-- `LW rt, imm(rs)` -/
  | lw (rt rs : RegIdx) (imm : Imm)
  /-- `SW rt, imm(rs)` -/
  | sw (rt rs : RegIdx) (imm : Imm)
  /-- `BEQ rs, rt, offset` -/
  | beq (rs rt : RegIdx) (offset : Imm)
  deriving DecidableEq, Repr

end Sys2Proof
end

