-- ==== Sys2Proof/WellFormed.lean ====
section
/-! DEFINITION. Assembly lines and the operand ranges an assembler accepts (30_encoding.md R61, R62).

Every term of `Instr` is well formed by its types: "every index an instruction can name exists"
(10_state.md R14), "no register index is illegal" (30_encoding.md R56) and every 16-bit immediate is
legal. What can be ill formed is the assembly line, whose operands are plain numbers. -/

namespace Sys2Proof

/-- The symbolic register names (10_state.md R18). -/
inductive RegName where
  | zero | at_ | v0 | v1 | a0 | a1 | a2 | a3
  | t0 | t1 | t2 | t3 | t4 | t5 | t6 | t7
  | s0 | s1 | s2 | s3 | s4 | s5 | s6 | s7
  | t8 | t9 | k0 | k1 | gp | sp | fp | ra
  deriving DecidableEq, Repr

/-- A register operand as written: `$0` to `$31`, or a name (30_encoding.md R62). -/
inductive AsmReg where
  | num (n : Nat)
  | name (r : RegName)
  deriving DecidableEq, Repr

/-- A branch target as written: the signed word offset, or the word address a label stands for
(30_encoding.md R61). -/
inductive AsmTarget where
  | offset (o : Int)
  | label (address : Nat)
  deriving DecidableEq, Repr

/-- One line of assembly, operands in the order of 30_encoding.md R61. There are no
pseudo-instructions (R63). -/
inductive AsmLine where
  | add (rd rs rt : AsmReg)
  | and (rd rs rt : AsmReg)
  | slt (rd rs rt : AsmReg)
  | addi (rt rs : AsmReg) (imm : Int)
  | ori (rt rs : AsmReg) (imm : Int)
  | lui (rt : AsmReg) (imm : Int)
  | lw (rt : AsmReg) (imm : Int) (rs : AsmReg)
  | sw (rt : AsmReg) (imm : Int) (rs : AsmReg)
  | beq (rs rt : AsmReg) (target : AsmTarget)
  deriving DecidableEq, Repr

/-- A register operand is `$0` .. `$31` or a name (30_encoding.md R62). -/
def AsmReg.inRange : AsmReg → Bool
  | .num n => decide (n < 32)
  | .name _ => true

/-- `imm` of ADDI, LW, SW and `offset` of BEQ: -32768 .. 32767 (30_encoding.md R62). -/
def signedImmInRange (v : Int) : Bool := decide (-32768 ≤ v ∧ v ≤ 32767)

/-- `imm` of ORI and LUI: 0 .. 65535 (30_encoding.md R62). -/
def unsignedImmInRange (v : Int) : Bool := decide (0 ≤ v ∧ v ≤ 65535)

/-- The word offset a target stands for, in a branch at word address `pc` (30_encoding.md R61, D11).
For a label it is the plain difference, not yet taken modulo 2^16; which differences an assembler
accepts is settled in `AsmLine.wellFormed` (log 21). -/
def AsmTarget.toOffset (pc : Nat) : AsmTarget → Int
  | .offset o => o
  | .label address => (address : Int) - ((pc : Int) + 1)

/-- The operand ranges of 30_encoding.md R62, for a line that is to stand at word address `pc`.
DESIGN CHOICE (log 21, safe): R61 takes a label's difference modulo 2^16 and R62 bounds only a written
offset; here a label is held to the bounds of a written offset, so a BEQ to a label further away than
-32768 .. 32767, or near only by the wrap of pc, is refused. -/
def AsmLine.wellFormed (pc : Nat) : AsmLine → Bool
  | .add rd rs rt => rd.inRange && rs.inRange && rt.inRange
  | .and rd rs rt => rd.inRange && rs.inRange && rt.inRange
  | .slt rd rs rt => rd.inRange && rs.inRange && rt.inRange
  | .addi rt rs imm => rt.inRange && rs.inRange && signedImmInRange imm
  | .ori rt rs imm => rt.inRange && rs.inRange && unsignedImmInRange imm
  | .lui rt imm => rt.inRange && unsignedImmInRange imm
  | .lw rt imm rs => rt.inRange && rs.inRange && signedImmInRange imm
  | .sw rt imm rs => rt.inRange && rs.inRange && signedImmInRange imm
  | .beq rs rt target => rs.inRange && rt.inRange && signedImmInRange (target.toOffset pc)

end Sys2Proof
end

