-- ==== Sys2Proof/Decode.lean ====
section
/-! DEFINITION. Field extraction, the opcode map, the decoder and the encoder (30_encoding.md R51 to
R60, 40_datapath_cycle.md R71). -/

namespace Sys2Proof

/-- The seven fields the instruction decoder extracts from every word (30_encoding.md R51). -/
structure Fields where
  opcode : BitVec 6
  rs : RegIdx
  rt : RegIdx
  rd : RegIdx
  shamt : BitVec 5
  funct : BitVec 6
  immediate : Imm
  deriving DecidableEq, Repr

/-- The instruction decoder component: a total function of the word (40_datapath_cycle.md R71). -/
def fieldsOf (w : Word) : Fields :=
  { opcode := w.extractLsb 31 26
    rs := w.extractLsb 25 21
    rt := w.extractLsb 20 16
    rd := w.extractLsb 15 11
    shamt := w.extractLsb 10 6
    funct := w.extractLsb 5 0
    immediate := w.extractLsb 15 0 }

/-- Why a word is no instruction (30_encoding.md R58): its opcode is in no row, or its opcode is 0
and its funct is in no R-type row. -/
inductive DecodeReject where
  | unsupportedOpcode (opcode : BitVec 6)
  | unsupportedFunct (funct : BitVec 6)
  deriving DecidableEq, Repr

/-- From the fields of a word to its instruction, or to the name of the reason it is none. Only
opcode, and funct when opcode is 0, select (30_encoding.md R56, R57); every other pair is rejected
(R58). The opcode and funct numbers are the source's, unaudited: UNVERIFIED (log 19, unsafe). -/
def decodeFields (f : Fields) : Except DecodeReject Instr :=
  if f.opcode = 0x00#6 then
    if f.funct = 0x20#6 then .ok (.add f.rd f.rs f.rt)
    else if f.funct = 0x24#6 then .ok (.and f.rd f.rs f.rt)
    else if f.funct = 0x2A#6 then .ok (.slt f.rd f.rs f.rt)
    else .error (.unsupportedFunct f.funct)
  else if f.opcode = 0x08#6 then .ok (.addi f.rt f.rs f.immediate)
  else if f.opcode = 0x0F#6 then .ok (.lui f.rt f.immediate)
  else if f.opcode = 0x0D#6 then .ok (.ori f.rt f.rs f.immediate)
  else if f.opcode = 0x23#6 then .ok (.lw f.rt f.rs f.immediate)
  else if f.opcode = 0x2B#6 then .ok (.sw f.rt f.rs f.immediate)
  else if f.opcode = 0x04#6 then .ok (.beq f.rs f.rt f.immediate)
  else .error (.unsupportedOpcode f.opcode)

/-- The decoder: total on every word, rejecting by name. -/
def decode (w : Word) : Except DecodeReject Instr := decodeFields (fieldsOf w)

/-- The instruction read from an instruction whose bits are `w`, numbered as the opcode table numbers
them; every bit at or above `nbits` is 0. An instruction is one 32-bit word (30_encoding.md R50). -/
def decodeTableWord (nbits w : Nat) : Option Instr :=
  match decode (BitVec.ofNat 32 (w % 2 ^ nbits)) with
  | .ok i => some i
  | .error _ => none

/-- The R-type format with opcode 0 and shamt 0 (30_encoding.md R52, R60). -/
def encodeR (rs rt rd : RegIdx) (funct : BitVec 6) : Word :=
  rs.zeroExtend 32 <<< 21 ||| rt.zeroExtend 32 <<< 16 ||| rd.zeroExtend 32 <<< 11 |||
    funct.zeroExtend 32

/-- The I-type format (30_encoding.md R53). -/
def encodeI (opcode : BitVec 6) (rs rt : RegIdx) (immediate : Imm) : Word :=
  opcode.zeroExtend 32 <<< 26 ||| rs.zeroExtend 32 <<< 21 ||| rt.zeroExtend 32 <<< 16 |||
    immediate.zeroExtend 32

/-- The word of an instruction, zero in the ignored fields (30_encoding.md R57, R60). -/
def encode : Instr → Word
  | .add rd rs rt => encodeR rs rt rd 0x20#6
  | .and rd rs rt => encodeR rs rt rd 0x24#6
  | .slt rd rs rt => encodeR rs rt rd 0x2A#6
  | .addi rt rs imm => encodeI 0x08#6 rs rt imm
  | .lui rt imm => encodeI 0x0F#6 0#5 rt imm
  | .ori rt rs imm => encodeI 0x0D#6 rs rt imm
  | .lw rt rs imm => encodeI 0x23#6 rs rt imm
  | .sw rt rs imm => encodeI 0x2B#6 rs rt imm
  | .beq rs rt offset => encodeI 0x04#6 rs rt offset

/-- The mnemonics of the opcode map (30_encoding.md R57). -/
inductive Mnemonic where
  | ADD | AND | SLT | ADDI | LUI | ORI | LW | SW | BEQ
  deriving DecidableEq, Repr

/-- The mnemonic of an instruction. -/
def Instr.mnemonic : Instr → Mnemonic
  | .add _ _ _ => .ADD
  | .and _ _ _ => .AND
  | .slt _ _ _ => .SLT
  | .addi _ _ _ => .ADDI
  | .lui _ _ => .LUI
  | .ori _ _ _ => .ORI
  | .lw _ _ _ => .LW
  | .sw _ _ _ => .SW
  | .beq _ _ _ => .BEQ

/-- One row of the opcode map: "a word w is the instruction of a row when w & mask == match"
(30_encoding.md R57). `ignored` marks the bits the hardware ignores (30_encoding.md R60). -/
structure OpcodeRow where
  mnemonic : Mnemonic
  pattern : Word
  mask : Word
  ignored : Word
  deriving DecidableEq, Repr

/-- A word is the instruction of a row (30_encoding.md R57). -/
abbrev OpcodeRow.matches (row : OpcodeRow) (w : Word) : Prop := w &&& row.mask = row.pattern

/-- The row of each mnemonic, as 30_encoding.md R57 and spec/opcode_table.json print it. -/
def opcodeRow : Mnemonic → OpcodeRow
  | .ADD => ⟨.ADD, 0x00000020#32, 0xFC00003F#32, 0x000007C0#32⟩
  | .AND => ⟨.AND, 0x00000024#32, 0xFC00003F#32, 0x000007C0#32⟩
  | .SLT => ⟨.SLT, 0x0000002A#32, 0xFC00003F#32, 0x000007C0#32⟩
  | .ADDI => ⟨.ADDI, 0x20000000#32, 0xFC000000#32, 0#32⟩
  | .LUI => ⟨.LUI, 0x3C000000#32, 0xFC000000#32, 0x03E00000#32⟩
  | .ORI => ⟨.ORI, 0x34000000#32, 0xFC000000#32, 0#32⟩
  | .LW => ⟨.LW, 0x8C000000#32, 0xFC000000#32, 0#32⟩
  | .SW => ⟨.SW, 0xAC000000#32, 0xFC000000#32, 0#32⟩
  | .BEQ => ⟨.BEQ, 0x10000000#32, 0xFC000000#32, 0#32⟩

/-- The number of a register name. PRESUMED (log 14, unsafe): the conventional MIPS numbering, which
the spec supplies from general knowledge (10_state.md R18, G1). -/
def RegName.number : RegName → RegIdx
  | .zero => 0 | .at_ => 1 | .v0 => 2 | .v1 => 3 | .a0 => 4 | .a1 => 5 | .a2 => 6 | .a3 => 7
  | .t0 => 8 | .t1 => 9 | .t2 => 10 | .t3 => 11 | .t4 => 12 | .t5 => 13 | .t6 => 14 | .t7 => 15
  | .s0 => 16 | .s1 => 17 | .s2 => 18 | .s3 => 19 | .s4 => 20 | .s5 => 21 | .s6 => 22 | .s7 => 23
  | .t8 => 24 | .t9 => 25 | .k0 => 26 | .k1 => 27 | .gp => 28 | .sp => 29 | .fp => 30 | .ra => 31

/-- The register field of an operand. -/
def AsmReg.number : AsmReg → RegIdx
  | .num n => BitVec.ofNat 5 n
  | .name r => r.number

/-- The instruction of a line, immediates taken modulo 2^16 (30_encoding.md R61). -/
def AsmLine.toInstr (pc : Nat) : AsmLine → Instr
  | .add rd rs rt => .add rd.number rs.number rt.number
  | .and rd rs rt => .and rd.number rs.number rt.number
  | .slt rd rs rt => .slt rd.number rs.number rt.number
  | .addi rt rs imm => .addi rt.number rs.number (BitVec.ofInt 16 imm)
  | .ori rt rs imm => .ori rt.number rs.number (BitVec.ofInt 16 imm)
  | .lui rt imm => .lui rt.number (BitVec.ofInt 16 imm)
  | .lw rt imm rs => .lw rt.number rs.number (BitVec.ofInt 16 imm)
  | .sw rt imm rs => .sw rt.number rs.number (BitVec.ofInt 16 imm)
  | .beq rs rt target => .beq rs.number rt.number (BitVec.ofInt 16 (target.toOffset pc))

/-- The word of a line that stands at word address `pc`; a line outside the operand ranges is not
assembled (30_encoding.md R61, R62). PRESUMED operand order (log 14, unsafe). -/
def assemble (pc : Nat) (line : AsmLine) : Option Word :=
  if line.wellFormed pc then some (encode (line.toInstr pc)) else none

end Sys2Proof
end

