-- ==== Sys2Proof/Config.lean ====
section
/-! DEFINITION. The open sizes of one installation (00_scope.md R5, D3, D4). The spec leaves nothing
else to the implementation, and no value of a cycle is free (40_datapath_cycle.md R87), so this file
declares no opaque constant. -/

namespace Sys2Proof

/-- The two memory sizes the source calls "configured" and gives no number for (00_scope.md R5).
DESIGN CHOICE (log 1, safe): they are carried in the state and never change, so that a statement
about every state is a statement about every size. -/
structure Config where
  /-- DMEM_WORDS: the valid data addresses are 0 .. dmemWords - 1. -/
  dmemWords : Nat
  /-- IMEM_WORDS: the capacity of the instruction memory, used by the load check alone (D4). -/
  imemWords : Nat
  deriving DecidableEq, Repr

/-- The ranges of 00_scope.md R5. -/
abbrev Config.valid (c : Config) : Prop :=
  1 ≤ c.dmemWords ∧ c.dmemWords ≤ 2 ^ 32 ∧ c.imemWords ≤ 2 ^ 32

end Sys2Proof
end

