-- ==== Sys2Proof/Machine/Memory.lean ====
section
/-! DEFINITION. Storage of 32-bit words by word address, in one canonical form. -/

namespace Sys2Proof.Machine

/-- One word at a word address. DESIGN CHOICE (log 6, safe): a cell holds a whole word, since "the
machine has no byte: the smallest addressable unit of both memories is the 32-bit word"
(20_memory.md R34). -/
abbrev Cell := Nat × Word

/-- Word-addressable storage: cells with strictly rising addresses, none holding what an unlisted
address reads as. -/
abbrev Memory := List Cell

/-- What an address that is not listed reads as: zero, the spec's reset contents (10_state.md R25). -/
def Memory.unlisted : Word := 0

/-- The canonical form, so that equal memories are equal lists. -/
abbrev Memory.wf (m : Memory) : Prop :=
  m.Pairwise (fun c d => c.1 < d.1) ∧ ∀ c ∈ m, c.2 ≠ Memory.unlisted

/-- Every listed address is below `bound`. -/
abbrev Memory.below (m : Memory) (bound : Nat) : Prop := ∀ c ∈ m, c.1 < bound

/-- The word at an address. -/
def Memory.read : Memory → Nat → Word
  | [], _ => Memory.unlisted
  | (k, v) :: rest, a => if k = a then v else Memory.read rest a

/-- The cells without the one at address `a`. -/
def Memory.erase (m : Memory) (a : Nat) : Memory := m.filter (fun c => c.1 != a)

/-- Put a cell before the first cell of a larger address. -/
def Memory.insert : Memory → Nat → Word → Memory
  | [], a, v => [(a, v)]
  | (k, u) :: rest, a, v => if a < k then (a, v) :: (k, u) :: rest else (k, u) :: Memory.insert rest a v

/-- Store the word `v` at address `a`, keeping the canonical form. -/
def Memory.write (m : Memory) (a : Nat) (v : Word) : Memory :=
  if v = Memory.unlisted then m.erase a else (m.erase a).insert a v

end Sys2Proof.Machine
end

