-- ==== Sys2Proof/Machine/Launch.lean ====
section
/-! DEFINITION. What the driver supplies before the first cycle (00_scope.md R5, 70 R172, R173). -/

namespace Sys2Proof.Machine

/-- The launch parameters of 00_scope.md R5 (all but N_CYCLES, an argument of the driver's loop). -/
structure Launch where
  /-- DMEM_WORDS and IMEM_WORDS. -/
  config : Config
  /-- IMAGE: the program, its first word at instruction address 0. -/
  image : List Word
  /-- INIT_REGS: register values at reset, entry 0 ignored. -/
  initRegs : Vector Word 32
  /-- INIT_DMEM: data memory at reset, a finite table since only DMEM_WORDS addresses exist. -/
  initDmem : Memory
  deriving DecidableEq, Repr

/-- A launch in the ranges of 00_scope.md R5: valid sizes, an image that fits, initial data in the
canonical form and within the data address space. -/
abbrev Launch.valid (l : Launch) : Prop :=
  l.config.valid ∧ l.image.length ≤ l.config.imemWords ∧ l.initDmem.wf ∧
    l.initDmem.below l.config.dmemWords

/-- DMEM_WORDS of `State.reset`. DESIGN CHOICE (log 2, unsafe): the spec leaves it OPEN (D3); 1024 is
the size its test vectors take "unless a vector says otherwise" (95_test_vectors.md). -/
def defaultDmemWords : Nat := 1024

/-- IMEM_WORDS of `State.reset`. DESIGN CHOICE (log 3, unsafe): the spec leaves it OPEN (D4); the
largest capacity it allows, so that no image the spec admits is turned away. -/
def defaultImemWords : Nat := 2 ^ 32

/-- The launch with every default of 00_scope.md R5: registers and data memory all zero (D8, log 4).
No image: the spec gives none, "the program is the model's input". DESIGN CHOICE (log 5, safe). -/
def defaultLaunch : Launch :=
  { config := { dmemWords := defaultDmemWords, imemWords := defaultImemWords }
    image := []
    initRegs := Vector.replicate 32 0
    initDmem := [] }

end Sys2Proof.Machine
end

