-- ==== Sys2Proof/Machine/State.lean ====
section
/-! DEFINITION. The state, its reset, and the reasons a step can stop (10_state.md, 60_exceptions.md). -/

namespace Sys2Proof.Machine

/-- "The core has exactly three pieces of state that persist across a cycle boundary": pc, registers
and data memory (10_state.md R10). The image and the sizes are constants of a run, parameters of the
step in the spec (R21). DESIGN CHOICE (log 1, safe): they stand here since `step` has no other
argument; no step changes them. -/
structure State where
  /-- The program counter, a word address (10_state.md R12). -/
  pc : Word
  /-- The 32 slots of the register file; slot 0 is never read (10_state.md R14, R15). -/
  regs : Vector Word 32
  /-- Data memory (10_state.md R19). -/
  dmem : Memory
  /-- The instruction memory's image (10_state.md R21). -/
  image : List Word
  /-- The memory sizes (00_scope.md R5). -/
  config : Config
  deriving DecidableEq, Repr

/-- The three run-time faults, with the information reported (60_exceptions.md R140). Each aborts the
cycle and commits nothing (R146); the spec fixes which is raised, so none is a guess of the model. -/
inductive Fault where
  /-- Code 1. Raised by `step` when the fetched word is no instruction (60_exceptions.md R141).
  Safe: the source calls the cycle fatal. -/
  | unsupportedInstruction (pc instr : Word)
  /-- Code 2. Raised by LW and SW when the data address is at or above DMEM_WORDS
  (60_exceptions.md R142). Safe: the source calls it fatal; the unsigned reading of the address
  is D12 (log 10). -/
  | dataAddressOutOfRange (pc address : Word)
  /-- Code 3. Raised by `step` when pc is at or beyond the end of the image (60_exceptions.md R143).
  Safe: the spec's own fault for a fetch the source does not define (D4, log 8). -/
  | fetchOutOfRange (pc : Word)
  deriving DecidableEq, Repr

/-- Refusals: the spec gives every instruction its effect, so no step answers with one. -/
inductive Refusal where
  /-- For an arm of `exec` that has no meaning yet. No arm raises it. Safe: the model would stop. -/
  | notModelled (mnemonic : String)
  deriving DecidableEq, Repr

/-- The state after reset with the launch's values (10_state.md R25, 70_reset_and_hazards.md R170):
pc 0, a supplied value for register 0 ignored. -/
def State.init (l : Launch) : State :=
  { pc := 0
    regs := l.initRegs.set 0 0
    dmem := l.initDmem
    image := l.image
    config := l.config }

/-- The state after reset with every launch parameter at its default. -/
def State.reset : State := State.init defaultLaunch

end Sys2Proof.Machine
end

