-- ==== Sys2Proof/Machine/Ops.lean ====
section
/-! DEFINITION. The named operations over registers, data memory, instruction memory and pc: the
pseudocode primitives of 00_scope.md R8. -/

namespace Sys2Proof.Machine

/-- What a cycle answers. -/
abbrev StepResult := Host.Outcome State Fault Refusal

/-- `raise F(info)`: abort the cycle; nothing is committed (60_exceptions.md R146). There is no trap
entry and no return from one: no handler, nothing saved (R151, R152). The spec's reading of "aborted"
(D5, log 7, unsafe). -/
def raise (f : Fault) : StepResult := .fault f

/-- `x[i]`: register 0 "always reads as 0" (10_state.md R15). -/
def State.readReg (s : State) (r : RegIdx) : Word :=
  if r = 0 then 0 else s.regs[r.toNat]'(r.isLt)

/-- `x[i] <- v`: "a write targeting index 0 is silently discarded" (10_state.md R15). -/
def State.writeReg (s : State) (r : RegIdx) (v : Word) : State :=
  if r = 0 then s else { s with regs := s.regs.set r.toNat v r.isLt }

/-- `pc <- t`. -/
def State.setPc (s : State) (t : Word) : State := { s with pc := t }

/-- `pc <- (pc + 1) mod 2^32` (10_state.md R12, R13; the wrap is D7, log 9, unsafe). -/
def State.advance (s : State) : State := s.setPc (s.pc + 1)

/-- Commit a register result and go to the next instruction: the cycle boundary of every instruction
that writes a register (40_datapath_cycle.md R81, R83). -/
def State.commitReg (s : State) (r : RegIdx) (v : Word) : State := (s.writeReg r v).advance

/-- A data address exists: `unsigned(a) < DMEM_WORDS` (20_memory.md R31; unsigned by D12, log 10, safe). -/
abbrev State.dataAddressExists (s : State) (a : Word) : Prop := a.toNat < s.config.dmemWords

/-- `MemRead(a, 32)`: the word at data address `a`, none where the address does not exist
(20_memory.md R40). -/
def State.memRead (s : State) (a : Word) : Option Word :=
  if s.dataAddressExists a then some (s.dmem.read a.toNat) else none

/-- `MemWrite(a, 32, v)`: none where the address does not exist (20_memory.md R41). -/
def State.memWrite (s : State) (a v : Word) : Option State :=
  if s.dataAddressExists a then some { s with dmem := s.dmem.write a.toNat v } else none

/-- `IFetch(pc)`: the image's word at pc, none at or beyond the image's end (20_memory.md R42; the
range check is D4, log 8, safe). -/
def State.fetch (s : State) : Option Word := s.image[s.pc.toNat]?

/-- The image with `w` at instruction address `a`, filled up with zero words (no instruction,
30_encoding.md R58) where it is shorter (log 5). -/
def placeInstr (image : List Word) (a : Nat) (w : Word) : List Word :=
  if a < image.length then image.set a w
  else image ++ List.replicate (a - image.length) 0 ++ [w]

/-- The code of a fault on the `fault` port (60_exceptions.md R140, R145; D6, log 13, safe). -/
def Fault.code : Fault → BitVec 2
  | .unsupportedInstruction _ _ => 1
  | .dataAddressOutOfRange _ _ => 2
  | .fetchOutOfRange _ => 3

end Sys2Proof.Machine
end

