-- ==== Sys2Proof/Machine/Operands.lean ====
section
/-! DEFINITION. Immediate extension, operand selection, the addressing mode and the branch target
(30_encoding.md R55, 40_datapath_cycle.md R76, 43_load_store.md R122, 44_branch.md R130). -/

namespace Sys2Proof.Machine

/-- `sext_32` (00_scope.md R8, 30_encoding.md R55). -/
def sext32 (imm : Imm) : Word := imm.signExtend 32

/-- `zext_32` (00_scope.md R8, 30_encoding.md R55). -/
def zext32 (imm : Imm) : Word := imm.zeroExtend 32

/-- `zext_32(immediate) << 16` (30_encoding.md R55). -/
def upperImm (imm : Imm) : Word := zext32 imm <<< 16

/-- The sources of ALU operand2 (40_datapath_cycle.md R72); symbolic (R88). -/
inductive AluSrc where
  | REG | SIGN_EXT_IMM | ZERO_EXT_IMM | SHIFT_IMM
  deriving DecidableEq, Repr

/-- `operand2` (40_datapath_cycle.md R76). -/
def operand2 (src : AluSrc) (rtData : Word) (imm : Imm) : Word :=
  match src with
  | .REG => rtData
  | .SIGN_EXT_IMM => sext32 imm
  | .ZERO_EXT_IMM => zext32 imm
  | .SHIFT_IMM => upperImm imm

/-- `ea = (x[rs] + sext_32(immediate)) mod 2^32`, a data word address, not scaled (43_load_store.md R122). -/
def effectiveAddress (s : State) (rs : RegIdx) (imm : Imm) : Word := s.readReg rs + sext32 imm

/-- `(pc + 1 + sext_32(immediate)) mod 2^32`, counted in instruction words, not scaled
(44_branch.md R130, C1). -/
def branchTarget (pc : Word) (imm : Imm) : Word := pc + 1 + sext32 imm

end Sys2Proof.Machine
end

