-- ==== Sys2Proof/Machine/Flags.lean ====
section
/-! DEFINITION. The ALU: its result and its one flag, both wires of a cycle (40_datapath_cycle.md R77,
R78). The machine stores no flag (10_state.md R22). -/

namespace Sys2Proof.Machine

/-- The ALU operations (40_datapath_cycle.md R72); symbolic (R88). -/
inductive AluOp where
  | ADD | AND | LUI | OR | SLT | BEQ
  deriving DecidableEq, Repr

/-- The value of SLT: the exact comparison of the two's-complement readings (41_rtype_alu.md R102). -/
def setLessThan (a b : Word) : Word := if a.toInt < b.toInt then 1 else 0

/-- `alu_result` (40_datapath_cycle.md R77). The BEQ row is unobservable; the spec fixes it to
operand2 - operand1 (D2, log 12). -/
def alu (op : AluOp) (operand1 operand2 : Word) : Word :=
  match op with
  | .ADD => operand1 + operand2
  | .AND => operand1 &&& operand2
  | .OR => operand1 ||| operand2
  | .SLT => if operand1.slt operand2 then 1 else 0
  | .LUI => operand2
  | .BEQ => operand2 - operand1

/-- `equal = ((operand2 - operand1) mod 2^32 == 0)` (40_datapath_cycle.md R78). -/
def equalFlag (operand1 operand2 : Word) : Bool := operand2 - operand1 == 0

end Sys2Proof.Machine
end

