-- ==== Sys2Proof/Machine/Branch.lean ====
section
/-! DEFINITION. BEQ, the only control transfer (44_branch.md). -/

namespace Sys2Proof.Machine

/-- BEQ rs, rt, offset: branch if equal, no delay slot, the target not checked here
(44_branch.md R130). -/
def execBeq (rs rt : RegIdx) (offset : Imm) (s : State) : StepResult :=
  .next (if s.readReg rs = s.readReg rt then s.setPc (branchTarget s.pc offset) else s.advance)

end Sys2Proof.Machine
end

