-- ==== Sys2Proof/Machine/IType.lean ====
section
/-! DEFINITION. ADDI, LUI, ORI (42_itype_alu.md). -/

namespace Sys2Proof.Machine

/-- ADDI rt, rs, imm: add a sign-extended immediate, wrapping (42_itype_alu.md R110). -/
def execAddi (rt rs : RegIdx) (imm : Imm) (s : State) : StepResult :=
  .next (s.commitReg rt (s.readReg rs + sext32 imm))

/-- LUI rt, imm: load the immediate into the upper half (42_itype_alu.md R111). -/
def execLui (rt : RegIdx) (imm : Imm) (s : State) : StepResult :=
  .next (s.commitReg rt (upperImm imm))

/-- ORI rt, rs, imm: bitwise OR with a zero-extended immediate (42_itype_alu.md R112). -/
def execOri (rt rs : RegIdx) (imm : Imm) (s : State) : StepResult :=
  .next (s.commitReg rt (s.readReg rs ||| zext32 imm))

end Sys2Proof.Machine
end

