-- ==== Sys2Proof/Machine/LoadStore.lean ====
section
/-! DEFINITION. LW, SW (43_load_store.md). -/

namespace Sys2Proof.Machine

/-- LW rt, imm(rs): load word. The read and its range check happen for rt = 0 too
(43_load_store.md R120; D16, log 11, safe). -/
def execLw (rt rs : RegIdx) (imm : Imm) (s : State) : StepResult :=
  match s.memRead (effectiveAddress s rs imm) with
  | some v => .next (s.commitReg rt v)
  | none => raise (.dataAddressOutOfRange s.pc (effectiveAddress s rs imm))

/-- SW rt, imm(rs): store word; the value is always x[rt] (43_load_store.md R121). -/
def execSw (rt rs : RegIdx) (imm : Imm) (s : State) : StepResult :=
  match s.memWrite (effectiveAddress s rs imm) (s.readReg rt) with
  | some t => .next t.advance
  | none => raise (.dataAddressOutOfRange s.pc (effectiveAddress s rs imm))

end Sys2Proof.Machine
end

