-- ==== Sys2Proof/Machine/RType.lean ====
section
/-! DEFINITION. ADD, AND, SLT (41_rtype_alu.md). -/

namespace Sys2Proof.Machine

/-- ADD rd, rs, rt: add two registers, wrapping (41_rtype_alu.md R100). -/
def execAdd (rd rs rt : RegIdx) (s : State) : StepResult :=
  .next (s.commitReg rd (s.readReg rs + s.readReg rt))

/-- AND rd, rs, rt: bitwise AND of two registers (41_rtype_alu.md R101). -/
def execAnd (rd rs rt : RegIdx) (s : State) : StepResult :=
  .next (s.commitReg rd (s.readReg rs &&& s.readReg rt))

/-- SLT rd, rs, rt: set on less than, signed (41_rtype_alu.md R102). -/
def execSlt (rd rs rt : RegIdx) (s : State) : StepResult :=
  .next (s.commitReg rd (setLessThan (s.readReg rs) (s.readReg rt)))

end Sys2Proof.Machine
end

