-- ==== Sys2Proof/Machine/Dispatch.lean ====
section
/-! DEFINITION. One arm per instruction, each one direct call of its meaning. -/

namespace Sys2Proof.Machine

/-- Execute a decoded instruction: one definition per row of the opcode map (30_encoding.md R57). -/
def exec (i : Instr) (s : State) : Host.Outcome State Fault Refusal :=
  match i with
  -- 41_rtype_alu.md
  | .add rd rs rt => Sys2Proof.Machine.execAdd rd rs rt s
  | .and rd rs rt => Sys2Proof.Machine.execAnd rd rs rt s
  | .slt rd rs rt => Sys2Proof.Machine.execSlt rd rs rt s
  -- 42_itype_alu.md
  | .addi rt rs imm => Sys2Proof.Machine.execAddi rt rs imm s
  | .lui rt imm => Sys2Proof.Machine.execLui rt imm s
  | .ori rt rs imm => Sys2Proof.Machine.execOri rt rs imm s
  -- 43_load_store.md
  | .lw rt rs imm => Sys2Proof.Machine.execLw rt rs imm s
  | .sw rt rs imm => Sys2Proof.Machine.execSw rt rs imm s
  -- 44_branch.md
  | .beq rs rt offset => Sys2Proof.Machine.execBeq rs rt offset s

end Sys2Proof.Machine
end

