-- ==== Sys2Proof/Machine/Step.lean ====
section
/-! DEFINITION. One cycle: fetch, decode, execute (40_datapath_cycle.md R85). -/

namespace Sys2Proof.Machine

/-- One clock cycle. The order of the faults is the order of the datapath (60_exceptions.md R148;
D15, log 17, safe). -/
def step (s : State) : Host.Outcome State Fault Refusal :=
  match s.fetch with
  | none => raise (.fetchOutOfRange s.pc)
  | some w =>
    match decode w with
    | .ok i => exec i s
    | .error _ => raise (.unsupportedInstruction s.pc w)

/-- `s` with an instruction word placed where `step` fetches next: the load of a program
(70_reset_and_hazards.md R172, log 5). -/
def State.withFetchWord (s : State) (nbits w : Nat) : State :=
  { s with image := placeInstr s.image s.pc.toNat (BitVec.ofNat 32 (w % 2 ^ nbits)) }

end Sys2Proof.Machine
end

