-- ==== Sys2Proof/Machine/Datapath.lean ====
section
/-! DEFINITION. The machine as its components: control unit, operand selection, ALU, write-back
arbitration and pc update, composed into one cycle that is defined for any control bundle
(40_datapath_cycle.md R72 to R86). `step` is written from the instruction rules R100 to R130; this is
the other reading, and Certificates/Slice0/Obligations.lean states that the two agree. -/

namespace Sys2Proof.Machine

/-- The control-signal bundle (40_datapath_cycle.md R72). -/
structure ControlSignals where
  /-- true: dest = rd; false: dest = rt. -/
  regDst : Bool
  branch : Bool
  regWrite : Bool
  aluSrc : AluSrc
  memWrite : Bool
  /-- true: write-back data = DMEM[alu_result]. -/
  memToReg : Bool
  aluOp : AluOp
  deriving DecidableEq, Repr

/-- The bundles of the nine rows (40_datapath_cycle.md R73). The don't-care entries, regDst and
memToReg of SW and BEQ, are false (D1, log 12). -/
def bundleOf : Mnemonic → ControlSignals
  | .ADD => ⟨true, false, true, .REG, false, false, .ADD⟩
  | .AND => ⟨true, false, true, .REG, false, false, .AND⟩
  | .SLT => ⟨true, false, true, .REG, false, false, .SLT⟩
  | .ADDI => ⟨false, false, true, .SIGN_EXT_IMM, false, false, .ADD⟩
  | .LUI => ⟨false, false, true, .SHIFT_IMM, false, false, .LUI⟩
  | .ORI => ⟨false, false, true, .ZERO_EXT_IMM, false, false, .OR⟩
  | .LW => ⟨false, false, true, .SIGN_EXT_IMM, false, true, .ADD⟩
  | .SW => ⟨false, false, false, .SIGN_EXT_IMM, true, false, .ADD⟩
  | .BEQ => ⟨false, true, false, .REG, false, false, .BEQ⟩

/-- The row a pair of selectors names, funct looked at only when opcode is 0 (40_datapath_cycle.md
R72, R73). -/
def rowOf (opcode funct : BitVec 6) : Option Mnemonic :=
  if opcode = 0x00#6 then
    if funct = 0x20#6 then some .ADD
    else if funct = 0x24#6 then some .AND
    else if funct = 0x2A#6 then some .SLT
    else none
  else if opcode = 0x08#6 then some .ADDI
  else if opcode = 0x0F#6 then some .LUI
  else if opcode = 0x0D#6 then some .ORI
  else if opcode = 0x23#6 then some .LW
  else if opcode = 0x2B#6 then some .SW
  else if opcode = 0x04#6 then some .BEQ
  else none

/-- The control unit: a bundle, or none for a pair that is in no row; "there is no default bundle"
(40_datapath_cycle.md R74). -/
def controlUnit (opcode funct : BitVec 6) : Option ControlSignals := (rowOf opcode funct).map bundleOf

/-- `dest` (40_datapath_cycle.md R79). -/
def destination (c : ControlSignals) (f : Fields) : RegIdx := if c.regDst then f.rd else f.rt

/-- `wb_data`, none where the load's address does not exist; data memory is read only when memToReg
is true (40_datapath_cycle.md R80). -/
def writeBackData (c : ControlSignals) (aluResult : Word) (s : State) : Option Word :=
  if c.memToReg then s.memRead aluResult else some aluResult

/-- `next_pc` (40_datapath_cycle.md R83). -/
def nextPc (c : ControlSignals) (equal : Bool) (imm : Imm) (pc : Word) : Word :=
  if c.branch && equal then branchTarget pc imm else pc + 1

/-- Steps 3 to 10 of the cycle for any bundle: every enable is tested on its own (R84), every value
comes from the state at the start of the cycle, and the three commits land together (R85, R86). -/
def runBundle (c : ControlSignals) (f : Fields) (s : State) : StepResult :=
  let rsData := s.readReg f.rs
  let rtData := s.readReg f.rt
  let op2 := operand2 c.aluSrc rtData f.immediate
  let aluResult := alu c.aluOp rsData op2
  match writeBackData c aluResult s with
  | none => raise (.dataAddressOutOfRange s.pc aluResult)
  | some wbData =>
    if c.memWrite ∧ ¬ s.dataAddressExists aluResult then
      raise (.dataAddressOutOfRange s.pc aluResult)
    else
      .next
        { pc := nextPc c (equalFlag rsData op2) f.immediate s.pc
          regs := if c.regWrite then (s.writeReg (destination c f) wbData).regs else s.regs
          dmem := if c.memWrite then s.dmem.write aluResult.toNat rtData else s.dmem
          image := s.image
          config := s.config }

/-- One cycle on what the fetch port answers (40_datapath_cycle.md R70, R85). -/
def cycleOn (fetched : Option Word) (s : State) : StepResult :=
  match fetched with
  | none => raise (.fetchOutOfRange s.pc)
  | some instr =>
    let f := fieldsOf instr
    match controlUnit f.opcode f.funct with
    | none => raise (.unsupportedInstruction s.pc instr)
    | some c => runBundle c f s

/-- One cycle of the datapath (40_datapath_cycle.md R85). -/
def datapathCycle (s : State) : StepResult := cycleOn s.fetch s

end Sys2Proof.Machine
end

