-- ==== Sys2Proof/Machine/Driver.lean ====
section
/-! DEFINITION. The core's side of the host interface: load, step, inspect
(70_reset_and_hazards.md R172 to R174, 60_exceptions.md R144, R146, R158). -/

namespace Sys2Proof.Machine

/-- The load-time rejection (60_exceptions.md R140, R144). -/
inductive LoadError where
  /-- Raised by `load` before any cycle. Safe: a malformed image gets no run (U10). -/
  | malformedImage
  deriving DecidableEq, Repr

/-- What the load interface answers. -/
inductive LoadResult where
  | started (s : State)
  | rejected (e : LoadError)
  deriving DecidableEq, Repr

/-- An image of integers that is well formed: at most IMEM_WORDS words, each in 0 .. 2^32-1
(60_exceptions.md R144; D17, log 13, safe). Unsupported words and the empty image are well formed. -/
abbrev imageWellFormed (c : Config) (words : List Int) : Prop :=
  words.length ≤ c.imemWords ∧ ∀ w ∈ words, 0 ≤ w ∧ w < 2 ^ 32

/-- Load an image and reset: the launch's sizes and initial values with the image's words, or a
rejection before any cycle (70_reset_and_hazards.md R172, R173). -/
def load (l : Launch) (words : List Int) : LoadResult :=
  if imageWellFormed l.config words then
    .started (State.init { l with image := words.map (BitVec.ofInt 32) })
  else .rejected .malformedImage

/-- One `step()` as the driver sees it: the state latched at the cycle boundary and the fault
reported. A fault leaves the state as it was (60_exceptions.md R146; D5, log 7, unsafe). -/
def tick (s : State) : State × Option Fault :=
  match step s with
  | .next t => (t, none)
  | .fault f => (s, some f)
  | .refused _ => (s, none)

/-- N_CYCLES steps: the state after the last and each cycle's report (70_reset_and_hazards.md R174).
The core never stops itself, a fault included (60_exceptions.md R147). -/
def ticks : Nat → State → State × List (Option Fault)
  | 0, s => (s, [])
  | n + 1, s => ((ticks n (tick s).1).1, (tick s).2 :: (ticks n (tick s).1).2)

/-- The read-only snapshot of latched state (60_exceptions.md R158, 20_memory.md R48). -/
structure Snapshot where
  pc : Word
  regs : Vector Word 32
  dmem : List Word
  deriving DecidableEq, Repr

/-- Inspect: pc (D21), the 32 registers, all DMEM_WORDS words of data memory. -/
def inspect (s : State) : Snapshot :=
  { pc := s.pc
    regs := Vector.ofFn fun i => s.readReg (BitVec.ofFin i)
    dmem := (List.range s.config.dmemWords).map s.dmem.read }

end Sys2Proof.Machine
end

