-- ==== Sys2Proof/Machine/Ports.lean ====
section
/-! DEFINITION. The hardware reading of the interface: ports, the clock edge, the synchronous reset
(40_datapath_cycle.md R70, 70_reset_and_hazards.md R170). All of it is the spec's own choice (D9,
D21, log 15, safe). -/

namespace Sys2Proof.Machine

/-- The input ports of one cycle; clk is the call of `risingEdge` itself (40_datapath_cycle.md R70). -/
structure PortsIn where
  rst : Bool
  imemData : Word
  imemValid : Bool
  dbgRegAddr : RegIdx
  dbgMemAddr : Word
  deriving DecidableEq, Repr

/-- The output ports of one cycle (40_datapath_cycle.md R70). -/
structure PortsOut where
  imemAddr : Word
  fault : BitVec 2
  dbgPc : Word
  dbgRegData : Word
  dbgMemData : Word
  deriving DecidableEq, Repr

/-- What the fetch port delivers: `imem_valid` = 0 means that pc is beyond the image. -/
def PortsIn.fetched (p : PortsIn) : Option Word := if p.imemValid then some p.imemData else none

/-- The external instruction memory's answer on the fetch port: the word at pc, if there is one. Which
word stands on imem_data while imem_valid is 0 the spec does not say (R70, N11): DESIGN CHOICE (log 22,
safe), it is left open, whatever word `p` carries there. -/
def imemAnswer (s : State) (p : PortsIn) : PortsIn :=
  { p with
    imemData := s.fetch.getD p.imemData
    imemValid := s.fetch.isSome }

/-- The `fault` port: 0 none, else the code; none is reported in a cycle of reset. -/
def faultPort (p : PortsIn) (s : State) : BitVec 2 :=
  if p.rst then 0
  else match cycleOn p.fetched s with
    | .fault f => f.code
    | _ => 0

/-- The combinational outputs of a cycle. A debug read at an address that does not exist reads 0 and
raises nothing (D21). -/
def outputs (p : PortsIn) (s : State) : PortsOut :=
  { imemAddr := s.pc
    fault := faultPort p s
    dbgPc := s.pc
    dbgRegData := s.readReg p.dbgRegAddr
    dbgMemData := (s.memRead p.dbgMemAddr).getD 0 }

/-- What all state takes at a rising edge of clk: the reset values if rst = 1, else the staged values,
and with a fault nothing (40_datapath_cycle.md R70). `l` is the launch the reset values come from. -/
def risingEdge (l : Launch) (p : PortsIn) (s : State) : State :=
  if p.rst then State.init l
  else match cycleOn p.fetched s with
    | .next t => t
    | _ => s

end Sys2Proof.Machine
end

