-- ==== Sys2Proof/Safety.lean ====
section
/-! DEFINITION. What counts as a well-kept state, a fault-free run and an instruction's result, in the
terms the claims use. -/

namespace Sys2Proof

open Sys2Proof.Machine

/-- The relations between the state's fields that a launch establishes and every step keeps: legal
sizes (00_scope.md R5), an image within the capacity (60_exceptions.md R144), data memory canonical
and within its address space (20_memory.md R38), slot 0 of the register file zero (10_state.md R15). -/
abbrev MachineInv (s : State) : Prop :=
  s.config.valid ∧ s.image.length ≤ s.config.imemWords ∧ s.dmem.wf ∧
    s.dmem.below s.config.dmemWords ∧ s.regs[0] = 0

/-- `n` steps from `s` raise nothing and end in `t` (70_reset_and_hazards.md R174). -/
def RunsTo : Nat → State → State → Prop
  | 0, s, t => s = t
  | n + 1, s, t => ∃ u, step s = .next u ∧ RunsTo n u t

/-- A safe run: `n` steps from `s` raise nothing. A fault is the end of a run in a "gone wrong" state
(60_exceptions.md R147). -/
def Safe (n : Nat) (s : State) : Prop := ∃ t, RunsTo n s t

/-- `t` is `s` after a cycle that writes `v` to register `dest`, nothing else, and advances pc: the
write to register 0 discarded, every other register, every data word and the run's constants kept. -/
def RegisterResult (s t : State) (dest : RegIdx) (v : Word) : Prop :=
  t.pc = s.pc + 1 ∧ t.readReg dest = (if dest = 0 then 0 else v) ∧
    (∀ r, r ≠ dest → t.readReg r = s.readReg r) ∧
    (∀ a, t.dmem.read a = s.dmem.read a) ∧ t.image = s.image ∧ t.config = s.config

/-- `t` is `s` after a cycle that writes no register and no data word and sets pc to `target`. -/
def TransferResult (s t : State) (target : Word) : Prop :=
  t.pc = target ∧ (∀ r, t.readReg r = s.readReg r) ∧ (∀ a, t.dmem.read a = s.dmem.read a) ∧
    t.image = s.image ∧ t.config = s.config

/-- `t` is `s` after a cycle that stores the word `v` at data address `a`, nothing else, and advances
pc. -/
def StoreResult (s t : State) (a : Nat) (v : Word) : Prop :=
  t.pc = s.pc + 1 ∧ (∀ r, t.readReg r = s.readReg r) ∧ t.dmem.read a = v ∧
    (∀ b, b ≠ a → t.dmem.read b = s.dmem.read b) ∧ t.image = s.image ∧ t.config = s.config

/-- What a register operand may be (30_encoding.md R62): `$0` to `$31`, or a name. -/
def AsmReg.Legal : AsmReg → Prop
  | .num n => n ≤ 31
  | .name _ => True

/-- The register a register operand stands for: the one of the number written, or of the name (10_state.md
R18; the names' numbers are PRESUMED, log 14). -/
def AsmReg.Denotes : AsmReg → RegIdx → Prop
  | .num n, x => x.toNat = n
  | .name r, x => x = r.number

/-- Standing at word address `pc`, a line whose operands are in range assembles to a word that decodes
to an instruction as `reads` says and is zero in the bits the hardware ignores; out of range it is not
assembled (30_encoding.md R60 to R62). -/
def AssemblesTo (pc : Nat) (line : AsmLine) (inRange : Prop) (reads : Instr → Prop) : Prop :=
  (inRange → ∃ w i, assemble pc line = some w ∧ decode w = .ok i ∧ reads i ∧
    w &&& (opcodeRow i.mnemonic).ignored = 0) ∧
  (¬ inRange → assemble pc line = none)

/-- The column "writes" of the table of 10_state.md R17. -/
def Instr.writtenRegister : Instr → Option RegIdx
  | .add rd _ _ => some rd
  | .and rd _ _ => some rd
  | .slt rd _ _ => some rd
  | .addi rt _ _ => some rt
  | .lui rt _ => some rt
  | .ori rt _ _ => some rt
  | .lw rt _ _ => some rt
  | .sw _ _ _ => none
  | .beq _ _ _ => none

/-- The columns "uses rs_data" and "uses rt_data" of the table of 10_state.md R17. -/
def Instr.usedRegisters : Instr → List RegIdx
  | .add _ rs rt => [rs, rt]
  | .and _ rs rt => [rs, rt]
  | .slt _ rs rt => [rs, rt]
  | .addi _ rs _ => [rs]
  | .lui _ _ => []
  | .ori _ rs _ => [rs]
  | .lw _ rs _ => [rs]
  | .sw rt rs _ => [rs, rt]
  | .beq rs rt _ => [rs, rt]

/-- The data address an instruction accesses, none for the seven that touch no data memory
(20_memory.md R33, 43_load_store.md R122). -/
def Instr.dataAddress (i : Instr) (s : State) : Option Word :=
  match i with
  | .add _ _ _ => none
  | .and _ _ _ => none
  | .slt _ _ _ => none
  | .addi _ _ _ => none
  | .lui _ _ => none
  | .ori _ _ _ => none
  | .lw _ rs imm => some (effectiveAddress s rs imm)
  | .sw _ rs imm => some (effectiveAddress s rs imm)
  | .beq _ _ _ => none

end Sys2Proof
end

