-- ==== Sys2Proof/Certificates/Slice0/Obligations.lean ====
section
/-! DEFINITION. The statements about the lab07 core, from the spec's numbered rules. Where a clause
rests on a decision the spec marks as its own (D<n>) or on a choice of this model (log n), the
docstring names it. -/

open Sys2Proof Sys2Proof.Machine

/-! ### Encoding -/

/-- Words of 95_test_vectors.md (Part 2, Part 3) decode to the instruction written beside them there:
V-ADD-1, V-AND-1, V-SLT-1, V-ADDI-2, V-LUI-5, V-ORI-4, V-LW-3, V-SW-3, V-BEQ-4, the all-zero word. -/
def Obligations.SampleWordsDecode : Prop :=
  decode 0x01095020#32 = .ok (.add 10 8 9) ∧
  decode 0x01084824#32 = .ok (.and 9 8 8) ∧
  decode 0x0109502A#32 = .ok (.slt 10 8 9) ∧
  decode 0x2108FFFF#32 = .ok (.addi 8 8 0xFFFF) ∧
  decode 0x3D281234#32 = .ok (.lui 8 0x1234) ∧
  decode 0x35085678#32 = .ok (.ori 8 8 0x5678) ∧
  decode 0x8D09FFFF#32 = .ok (.lw 9 8 0xFFFF) ∧
  decode 0xAD09FFFE#32 = .ok (.sw 9 8 0xFFFE) ∧
  decode 0x1109FFFD#32 = .ok (.beq 8 9 0xFFFD) ∧
  decode 0x00000000#32 = .error (.unsupportedFunct 0)

/-- R51, R71: each of the seven fields is the slice `(v >> lo) mod 2^(hi-lo+1)` of the word (R6), for
every word; opcode, rs, rt and immediate tile the word, and rd, shamt and funct tile the immediate. -/
def Obligations.FieldsAtFixedPositions : Prop :=
  ∀ w : Word,
    (fieldsOf w).opcode.toNat = w.toNat / 2 ^ 26 % 2 ^ 6 ∧
    (fieldsOf w).rs.toNat = w.toNat / 2 ^ 21 % 2 ^ 5 ∧
    (fieldsOf w).rt.toNat = w.toNat / 2 ^ 16 % 2 ^ 5 ∧
    (fieldsOf w).rd.toNat = w.toNat / 2 ^ 11 % 2 ^ 5 ∧
    (fieldsOf w).shamt.toNat = w.toNat / 2 ^ 6 % 2 ^ 5 ∧
    (fieldsOf w).funct.toNat = w.toNat % 2 ^ 6 ∧
    (fieldsOf w).immediate.toNat = w.toNat % 2 ^ 16 ∧
    w.toNat = (fieldsOf w).opcode.toNat * 2 ^ 26 + (fieldsOf w).rs.toNat * 2 ^ 21 +
      (fieldsOf w).rt.toNat * 2 ^ 16 + (fieldsOf w).immediate.toNat ∧
    (fieldsOf w).immediate.toNat = (fieldsOf w).rd.toNat * 2 ^ 11 +
      (fieldsOf w).shamt.toNat * 2 ^ 6 + (fieldsOf w).funct.toNat

/-- R57, R58: a word decodes to an instruction of a mnemonic exactly when it matches that mnemonic's
row, no word matches two rows, and a word that matches none is rejected. The match and mask columns
are the spec's own computation from opcode and funct (marked derived in R57). -/
def Obligations.DecoderFollowsOpcodeMap : Prop :=
  (∀ (w : Word) (m : Mnemonic),
    (opcodeRow m).matches w ↔ ∃ i, decode w = .ok i ∧ i.mnemonic = m) ∧
  (∀ (w : Word) (m n : Mnemonic), (opcodeRow m).matches w → (opcodeRow n).matches w → m = n) ∧
  (∀ w : Word, (∀ m, ¬ (opcodeRow m).matches w) → ∃ r, decode w = .error r)

/-- R56: words that agree in opcode, and in funct when opcode is 0, are the same instruction or are
both none; the control unit looks at funct only when opcode is 0. -/
def Obligations.OpcodeAndFunctAloneSelect : Prop :=
  (∀ w v : Word, (fieldsOf w).opcode = (fieldsOf v).opcode →
    ((fieldsOf w).opcode = 0 → (fieldsOf w).funct = (fieldsOf v).funct) →
    (decode w).toOption.map Instr.mnemonic = (decode v).toOption.map Instr.mnemonic) ∧
  (∀ opcode funct funct' : BitVec 6, opcode ≠ 0 → controlUnit opcode funct = controlUnit opcode funct')

/-- R74: a fetched word whose (opcode, funct) pair is not a row of R73 gets no bundle, is no
instruction, and the cycle raises UnsupportedInstruction; a cycle that raises it fetched such a word. -/
def Obligations.PairsOutsideTheTableAreUnsupported : Prop :=
  ∀ (s : State) (w : Word), s.fetch = some w →
    ((¬ ((fieldsOf w).opcode = 0x00 ∧ (fieldsOf w).funct ∈ [0x20#6, 0x24#6, 0x2A#6]) ∧
        (fieldsOf w).opcode ∉ [0x08#6, 0x0F#6, 0x0D#6, 0x23#6, 0x2B#6, 0x04#6]) ↔
      controlUnit (fieldsOf w).opcode (fieldsOf w).funct = none) ∧
    (controlUnit (fieldsOf w).opcode (fieldsOf w).funct = none ↔
      ∃ p v, step s = .fault (.unsupportedInstruction p v))

/-- Decoding an encoded instruction gives it back, for every operand of every instruction. -/
def Obligations.DecodeOfEncodeIsIdentity : Prop :=
  ∀ i : Instr, decode (encode i) = .ok i

/-- Encoding a decoded word gives the word back but for the bits the hardware ignores, which an encoder
writes as zero: shamt of the R-type rows and rs of LUI (R60; D11, log 16). -/
def Obligations.EncodeOfDecodeClearsIgnoredBits : Prop :=
  ∀ (w : Word) (i : Instr), decode w = .ok i →
    encode i = w &&& ~~~ (opcodeRow i.mnemonic).ignored

/-- The nine line forms, each through assemble and decode. With every operand in its range (registers
`$0` to `$31` or a name; imm of ADDI, LW, SW and offset of BEQ -32768 to 32767; imm of ORI and LUI 0 to
65535) the line assembles to a word that decodes to its instruction, the registers where the form names
them, the immediate extended as the hardware does being the integer written (LUI's, times 2^16), the
ignored bits zero. With any operand out of range the line is not assembled. R61, R62, by the spec's
decision D11; the operand order (G4) and the names' numbers (G1) are PRESUMED (log 14); that a label
further off than a written offset may be is refused is the model's choice (log 21). -/
def Obligations.AssembledImmediatesKeepTheirValue : Prop :=
  (∀ (pc : Nat) (rd rs rt : AsmReg),
    AssemblesTo pc (.add rd rs rt) (rd.Legal ∧ rs.Legal ∧ rt.Legal) fun i =>
      ∃ d s t, i = .add d s t ∧ rd.Denotes d ∧ rs.Denotes s ∧ rt.Denotes t) ∧
  (∀ (pc : Nat) (rd rs rt : AsmReg),
    AssemblesTo pc (.and rd rs rt) (rd.Legal ∧ rs.Legal ∧ rt.Legal) fun i =>
      ∃ d s t, i = .and d s t ∧ rd.Denotes d ∧ rs.Denotes s ∧ rt.Denotes t) ∧
  (∀ (pc : Nat) (rd rs rt : AsmReg),
    AssemblesTo pc (.slt rd rs rt) (rd.Legal ∧ rs.Legal ∧ rt.Legal) fun i =>
      ∃ d s t, i = .slt d s t ∧ rd.Denotes d ∧ rs.Denotes s ∧ rt.Denotes t) ∧
  (∀ (pc : Nat) (rt rs : AsmReg) (v : Int),
    AssemblesTo pc (.addi rt rs v) (rt.Legal ∧ rs.Legal ∧ -32768 ≤ v ∧ v ≤ 32767) fun i =>
      ∃ t s imm, i = .addi t s imm ∧ rt.Denotes t ∧ rs.Denotes s ∧ (sext32 imm).toInt = v) ∧
  (∀ (pc : Nat) (rt rs : AsmReg) (v : Int),
    AssemblesTo pc (.ori rt rs v) (rt.Legal ∧ rs.Legal ∧ 0 ≤ v ∧ v ≤ 65535) fun i =>
      ∃ t s imm, i = .ori t s imm ∧ rt.Denotes t ∧ rs.Denotes s ∧ ((zext32 imm).toNat : Int) = v) ∧
  (∀ (pc : Nat) (rt : AsmReg) (v : Int),
    AssemblesTo pc (.lui rt v) (rt.Legal ∧ 0 ≤ v ∧ v ≤ 65535) fun i =>
      ∃ t imm, i = .lui t imm ∧ rt.Denotes t ∧ ((upperImm imm).toNat : Int) = v * 2 ^ 16) ∧
  (∀ (pc : Nat) (rt rs : AsmReg) (v : Int),
    AssemblesTo pc (.lw rt v rs) (rt.Legal ∧ rs.Legal ∧ -32768 ≤ v ∧ v ≤ 32767) fun i =>
      ∃ t s imm, i = .lw t s imm ∧ rt.Denotes t ∧ rs.Denotes s ∧ (sext32 imm).toInt = v) ∧
  (∀ (pc : Nat) (rt rs : AsmReg) (v : Int),
    AssemblesTo pc (.sw rt v rs) (rt.Legal ∧ rs.Legal ∧ -32768 ≤ v ∧ v ≤ 32767) fun i =>
      ∃ t s imm, i = .sw t s imm ∧ rt.Denotes t ∧ rs.Denotes s ∧ (sext32 imm).toInt = v) ∧
  (∀ (pc : Nat) (rs rt : AsmReg) (v : Int),
    AssemblesTo pc (.beq rs rt (.offset v)) (rs.Legal ∧ rt.Legal ∧ -32768 ≤ v ∧ v ≤ 32767) fun i =>
      ∃ s t imm, i = .beq s t imm ∧ rs.Denotes s ∧ rt.Denotes t ∧ (sext32 imm).toInt = v) ∧
  (∀ (pc : Nat) (rs rt : AsmReg) (address : Nat),
    AssemblesTo pc (.beq rs rt (.label address))
      (rs.Legal ∧ rt.Legal ∧ -32768 ≤ (address : Int) - (pc + 1) ∧ (address : Int) - (pc + 1) ≤ 32767)
      fun i => ∃ s t imm, i = .beq s t imm ∧ rs.Denotes s ∧ rt.Denotes t ∧
        (sext32 imm).toInt = (address : Int) - (pc + 1))

/-- A BEQ assembled against a label, standing at word address pc, has the label's address as its
branch target (R61; the spec's decision D11, log 14; which labels assemble is log 21). -/
def Obligations.BranchToLabelReachesLabel : Prop :=
  ∀ (pc address : Nat) (rs rt : AsmReg) (w : Word),
    assemble pc (.beq rs rt (.label address)) = some w →
    ∃ offset, decode w = .ok (.beq rs.number rt.number offset) ∧
      branchTarget (BitVec.ofNat 32 pc) offset = BitVec.ofNat 32 address

/-! ### Components of the datapath -/

/-- R55: the three immediate forms, each by its value, the operand2 source that selects it, the
instructions that use it, and the branch offset, which is always sign-extended; nothing is scaled. -/
def Obligations.ImmediateForms : Prop :=
  (∀ imm : Imm,
    (sext32 imm).toInt = imm.toInt ∧
    (∀ k, k < 16 → (sext32 imm).getLsbD k = imm.getLsbD k) ∧
    (∀ k, 16 ≤ k → k < 32 → (sext32 imm).getLsbD k = imm.getLsbD 15) ∧
    (zext32 imm).toNat = imm.toNat ∧
    (upperImm imm).toNat = imm.toNat * 2 ^ 16) ∧
  (∀ (rtData : Word) (imm : Imm),
    operand2 .SIGN_EXT_IMM rtData imm = sext32 imm ∧
    operand2 .ZERO_EXT_IMM rtData imm = zext32 imm ∧
    operand2 .SHIFT_IMM rtData imm = upperImm imm) ∧
  (∀ m : Mnemonic,
    ((bundleOf m).aluSrc = .SIGN_EXT_IMM ↔ m = .ADDI ∨ m = .LW ∨ m = .SW) ∧
    ((bundleOf m).aluSrc = .ZERO_EXT_IMM ↔ m = .ORI) ∧
    ((bundleOf m).aluSrc = .SHIFT_IMM ↔ m = .LUI)) ∧
  (∀ (pc : Word) (imm : Imm), branchTarget pc imm = pc + 1 + sext32 imm)

/-- R73: the control table, all seven signals of all nine rows, for any funct where opcode is not 0.
The don't-care entries (regDst and memToReg of SW and BEQ) are the spec's decision D1 (log 12). -/
def Obligations.ControlTableRows : Prop :=
  controlUnit 0x00 0x20 = some ⟨true, false, true, .REG, false, false, .ADD⟩ ∧
  controlUnit 0x00 0x24 = some ⟨true, false, true, .REG, false, false, .AND⟩ ∧
  controlUnit 0x00 0x2A = some ⟨true, false, true, .REG, false, false, .SLT⟩ ∧
  ∀ funct : BitVec 6,
    controlUnit 0x08 funct = some ⟨false, false, true, .SIGN_EXT_IMM, false, false, .ADD⟩ ∧
    controlUnit 0x0F funct = some ⟨false, false, true, .SHIFT_IMM, false, false, .LUI⟩ ∧
    controlUnit 0x0D funct = some ⟨false, false, true, .ZERO_EXT_IMM, false, false, .OR⟩ ∧
    controlUnit 0x23 funct = some ⟨false, false, true, .SIGN_EXT_IMM, false, true, .ADD⟩ ∧
    controlUnit 0x2B funct = some ⟨false, false, false, .SIGN_EXT_IMM, true, false, .ADD⟩ ∧
    controlUnit 0x04 funct = some ⟨false, true, false, .REG, false, false, .BEQ⟩

/-- What R84 derives from the table: regWrite and memWrite are never both true, memToReg implies
regWrite, branch implies neither write, and a cycle makes at most one data access. The clauses about
memToReg hold of SW and BEQ because their don't-care memToReg is false, the spec's decision D1 (log 12). -/
def Obligations.BundlesAreExclusive : Prop :=
  ∀ (opcode funct : BitVec 6) (c : ControlSignals), controlUnit opcode funct = some c →
    ¬ (c.regWrite = true ∧ c.memWrite = true) ∧ (c.memToReg = true → c.regWrite = true) ∧
    (c.branch = true → c.regWrite = false ∧ c.memWrite = false) ∧
    ¬ (c.memToReg = true ∧ c.memWrite = true)

/-- R77: the six ALU results for all operands. The value under BEQ is the spec's decision D2 (log 12). -/
def Obligations.AluResults : Prop :=
  ∀ a b : Word,
    (alu .ADD a b).toNat = (a.toNat + b.toNat) % 2 ^ 32 ∧
    (∀ k, k < 32 → (alu .AND a b).getLsbD k = (a.getLsbD k && b.getLsbD k)) ∧
    (∀ k, k < 32 → (alu .OR a b).getLsbD k = (a.getLsbD k || b.getLsbD k)) ∧
    (alu .SLT a b).toNat = (if a.toInt < b.toInt then 1 else 0) ∧
    alu .LUI a b = b ∧
    alu .BEQ a b = BitVec.ofInt 32 (b.toInt - a.toInt)

/-- R78: the equality flag, a difference being zero, is the equality of the operands' patterns (marked
derived in R78). -/
def Obligations.EqualityFlagMeansSamePattern : Prop :=
  ∀ a b : Word, equalFlag a b = true ↔ a = b

/-- R83: the pc after a cycle of any bundle that raises nothing: the branch target if branch and the
equality flag of this cycle's operands hold, else pc + 1; the immediate is not scaled and alu_result
plays no part. -/
def Obligations.PcUpdateOfAnyBundle : Prop :=
  ∀ (c : ControlSignals) (f : Fields) (s t : State), runBundle c f s = .next t →
    t.pc =
      if c.branch = true ∧
          operand2 c.aluSrc (s.readReg f.rt) f.immediate - s.readReg f.rs = 0 then
        s.pc + 1 + sext32 f.immediate
      else s.pc + 1

/-- Register write (R81) and memory write (R82) for any bundle at all, none of its enables assumed exclusive. Where the bundle makes no
data access, or alu_result exists as a data address, the cycle answers a next state and raises nothing,
dest = 0 included: the register at dest holds the write-back data exactly if regWrite is true and dest
is not 0, the word at alu_result holds rt_data exactly if memWrite is true, every other register and
word is as it was, all from start-of-cycle values. Where it makes one and alu_result does not exist,
the cycle raises (R40, R41). Which data addresses exist is the spec's decision D12 (log 10). -/
def Obligations.EnablesCommitIndependently : Prop :=
  ∀ (c : ControlSignals) (f : Fields) (s : State) (aluResult wbData : Word),
    aluResult = alu c.aluOp (s.readReg f.rs) (operand2 c.aluSrc (s.readReg f.rt) f.immediate) →
    wbData = (if c.memToReg = true then s.dmem.read aluResult.toNat else aluResult) →
    ((c.memToReg = true ∨ c.memWrite = true → s.dataAddressExists aluResult) →
      ∃ t, runBundle c f s = .next t ∧
        (∀ r, t.readReg r =
          if c.regWrite = true ∧ r = (if c.regDst = true then f.rd else f.rt) ∧ r ≠ 0 then wbData
          else s.readReg r) ∧
        (∀ a, t.dmem.read a =
          if c.memWrite = true ∧ a = aluResult.toNat then s.readReg f.rt else s.dmem.read a) ∧
        t.image = s.image ∧ t.config = s.config) ∧
    ((c.memToReg = true ∨ c.memWrite = true) → ¬ s.dataAddressExists aluResult →
      ∃ raised, runBundle c f s = .fault raised)

/-- R85: `step`, written from the instruction rules R100 to R130, and the cycle composed of the
components of R71 to R83 answer the same, in every state: the same next state or the same fault. It
follows the decisions D1, D4, D5, D6, D7, D12, D15 and D16 of the spec (log 7 to 13, 17). -/
def Obligations.InstructionsRefineTheDatapath : Prop :=
  ∀ s : State, step s = datapathCycle s

/-! ### The nine instructions -/

/-- R100, whole: the words of ADD, their bundle, and the result for all registers and every state. -/
def Obligations.AddWritesWrappingSum : Prop :=
  (∀ w : Word, w &&& 0xFC00003F#32 = 0x00000020#32 →
    decode w = .ok (.add (w.extractLsb 15 11) (w.extractLsb 25 21) (w.extractLsb 20 16)) ∧
    controlUnit (w.extractLsb 31 26) (w.extractLsb 5 0) =
      some { regDst := true, branch := false, regWrite := true, aluSrc := .REG,
             memWrite := false, memToReg := false, aluOp := .ADD }) ∧
  ∀ (rd rs rt : RegIdx) (s : State), ∃ t, exec (.add rd rs rt) s = .next t ∧
    RegisterResult s t rd (BitVec.ofNat 32 ((s.readReg rs).toNat + (s.readReg rt).toNat))

/-- R101, whole: the words of AND, their bundle, and the result for all registers and every state. -/
def Obligations.AndWritesBitwiseAnd : Prop :=
  (∀ w : Word, w &&& 0xFC00003F#32 = 0x00000024#32 →
    decode w = .ok (.and (w.extractLsb 15 11) (w.extractLsb 25 21) (w.extractLsb 20 16)) ∧
    controlUnit (w.extractLsb 31 26) (w.extractLsb 5 0) =
      some { regDst := true, branch := false, regWrite := true, aluSrc := .REG,
             memWrite := false, memToReg := false, aluOp := .AND }) ∧
  ∀ (rd rs rt : RegIdx) (s : State), ∃ t, exec (.and rd rs rt) s = .next t ∧
    RegisterResult s t rd (s.readReg rs &&& s.readReg rt)

/-- R102, whole: the words of SLT, their bundle, and the result, the exact signed comparison, for all
registers and every state. -/
def Obligations.SltWritesSignedComparison : Prop :=
  (∀ w : Word, w &&& 0xFC00003F#32 = 0x0000002A#32 →
    decode w = .ok (.slt (w.extractLsb 15 11) (w.extractLsb 25 21) (w.extractLsb 20 16)) ∧
    controlUnit (w.extractLsb 31 26) (w.extractLsb 5 0) =
      some { regDst := true, branch := false, regWrite := true, aluSrc := .REG,
             memWrite := false, memToReg := false, aluOp := .SLT }) ∧
  ∀ (rd rs rt : RegIdx) (s : State), ∃ t, exec (.slt rd rs rt) s = .next t ∧
    RegisterResult s t rd (if (s.readReg rs).toInt < (s.readReg rt).toInt then 1 else 0)

/-- R110, whole: the words of ADDI, their bundle, and the result for all operands and every state. -/
def Obligations.AddiAddsSignExtendedImmediate : Prop :=
  (∀ w : Word, w &&& 0xFC000000#32 = 0x20000000#32 →
    decode w = .ok (.addi (w.extractLsb 20 16) (w.extractLsb 25 21) (w.extractLsb 15 0)) ∧
    controlUnit (w.extractLsb 31 26) (w.extractLsb 5 0) =
      some { regDst := false, branch := false, regWrite := true, aluSrc := .SIGN_EXT_IMM,
             memWrite := false, memToReg := false, aluOp := .ADD }) ∧
  ∀ (rt rs : RegIdx) (imm : Imm) (s : State), ∃ t, exec (.addi rt rs imm) s = .next t ∧
    RegisterResult s t rt (BitVec.ofInt 32 ((s.readReg rs).toInt + imm.toInt))

/-- R111, whole: the words of LUI, any rs field included, their bundle, the rs field an encoder
writes, and the result for all operands and every state. -/
def Obligations.LuiLoadsUpperHalf : Prop :=
  (∀ w : Word, w &&& 0xFC000000#32 = 0x3C000000#32 →
    decode w = .ok (.lui (w.extractLsb 20 16) (w.extractLsb 15 0)) ∧
    controlUnit (w.extractLsb 31 26) (w.extractLsb 5 0) =
      some { regDst := false, branch := false, regWrite := true, aluSrc := .SHIFT_IMM,
             memWrite := false, memToReg := false, aluOp := .LUI }) ∧
  (∀ (rt : RegIdx) (imm : Imm), (encode (.lui rt imm)).extractLsb 25 21 = 0#5) ∧
  ∀ (rt : RegIdx) (imm : Imm) (s : State), ∃ t, exec (.lui rt imm) s = .next t ∧
    RegisterResult s t rt (BitVec.ofNat 32 (imm.toNat * 2 ^ 16))

/-- R112, whole: the words of ORI, their bundle, and the result for all operands and every state. -/
def Obligations.OriOrsZeroExtendedImmediate : Prop :=
  (∀ w : Word, w &&& 0xFC000000#32 = 0x34000000#32 →
    decode w = .ok (.ori (w.extractLsb 20 16) (w.extractLsb 25 21) (w.extractLsb 15 0)) ∧
    controlUnit (w.extractLsb 31 26) (w.extractLsb 5 0) =
      some { regDst := false, branch := false, regWrite := true, aluSrc := .ZERO_EXT_IMM,
             memWrite := false, memToReg := false, aluOp := .OR }) ∧
  ∀ (rt rs : RegIdx) (imm : Imm) (s : State), ∃ t, exec (.ori rt rs imm) s = .next t ∧
    RegisterResult s t rt (s.readReg rs ||| BitVec.ofNat 32 imm.toNat)

/-- LW: its words and bundle; the address is base plus signed offset modulo 2^32; where it exists the
load completes, for rt = 0 too; where it does not, and for rt = 0 too, the cycle raises
DataAddressOutOfRange with pc and address. It follows the spec's decisions D6 (what is reported), D12
(the unsigned comparison) and D16 (rt = 0), log 10, 11, 13. -/
def Obligations.LwLoadsOrFaults : Prop :=
  (∀ w : Word, w &&& 0xFC000000#32 = 0x8C000000#32 →
    decode w = .ok (.lw (w.extractLsb 20 16) (w.extractLsb 25 21) (w.extractLsb 15 0)) ∧
    controlUnit (w.extractLsb 31 26) (w.extractLsb 5 0) =
      some { regDst := false, branch := false, regWrite := true, aluSrc := .SIGN_EXT_IMM,
             memWrite := false, memToReg := true, aluOp := .ADD }) ∧
  ∀ (rt rs : RegIdx) (imm : Imm) (s : State),
    effectiveAddress s rs imm = BitVec.ofInt 32 ((s.readReg rs).toInt + imm.toInt) ∧
    ((effectiveAddress s rs imm).toNat < s.config.dmemWords →
      ∃ t, exec (.lw rt rs imm) s = .next t ∧
        RegisterResult s t rt (s.dmem.read (effectiveAddress s rs imm).toNat)) ∧
    (s.config.dmemWords ≤ (effectiveAddress s rs imm).toNat →
      exec (.lw rt rs imm) s =
        .fault (.dataAddressOutOfRange s.pc (effectiveAddress s rs imm)))

/-- SW: its words and bundle; the address is base plus signed offset modulo 2^32; where it exists the
store completes: x[rt] at that address, every other word, every register and the run's constants
kept, pc + 1; where it does not, the cycle raises DataAddressOutOfRange with pc and address. It
follows the spec's decisions D1 (don't-care signals), D6 and D12, log 10, 12, 13. -/
def Obligations.SwStoresOrFaults : Prop :=
  (∀ w : Word, w &&& 0xFC000000#32 = 0xAC000000#32 →
    decode w = .ok (.sw (w.extractLsb 20 16) (w.extractLsb 25 21) (w.extractLsb 15 0)) ∧
    controlUnit (w.extractLsb 31 26) (w.extractLsb 5 0) =
      some { regDst := false, branch := false, regWrite := false, aluSrc := .SIGN_EXT_IMM,
             memWrite := true, memToReg := false, aluOp := .ADD }) ∧
  ∀ (rt rs : RegIdx) (imm : Imm) (s : State),
    effectiveAddress s rs imm = BitVec.ofInt 32 ((s.readReg rs).toInt + imm.toInt) ∧
    ((effectiveAddress s rs imm).toNat < s.config.dmemWords →
      ∃ t, exec (.sw rt rs imm) s = .next t ∧
        StoreResult s t (effectiveAddress s rs imm).toNat (s.readReg rt)) ∧
    (s.config.dmemWords ≤ (effectiveAddress s rs imm).toNat →
      exec (.sw rt rs imm) s =
        .fault (.dataAddressOutOfRange s.pc (effectiveAddress s rs imm)))

/-- BEQ: its words and bundle; with equal registers pc becomes pc + 1 plus the signed offset modulo
2^32, else pc + 1; nothing else changes; the target is not checked, and a target beyond the image
raises FetchOutOfRange in the next cycle, at the fetch. It follows the spec's decisions D1 (don't-care
signals), D4 (the fetch fault) and D7 (pc wraps), log 8, 9, 12. -/
def Obligations.BeqBranchesWhenEqual : Prop :=
  (∀ w : Word, w &&& 0xFC000000#32 = 0x10000000#32 →
    decode w = .ok (.beq (w.extractLsb 25 21) (w.extractLsb 20 16) (w.extractLsb 15 0)) ∧
    controlUnit (w.extractLsb 31 26) (w.extractLsb 5 0) =
      some { regDst := false, branch := true, regWrite := false, aluSrc := .REG,
             memWrite := false, memToReg := false, aluOp := .BEQ }) ∧
  ∀ (rs rt : RegIdx) (offset : Imm) (s : State), ∃ t, exec (.beq rs rt offset) s = .next t ∧
    TransferResult s t
      (if s.readReg rs = s.readReg rt then s.pc + 1 + BitVec.ofInt 32 offset.toInt
       else s.pc + 1) ∧
    (s.image.length ≤ t.pc.toNat → step t = .fault (.fetchOutOfRange t.pc))

/-- R131: a completed instruction that is not a taken BEQ leaves pc + 1. -/
def Obligations.OnlyTakenBeqLeavesTheSequence : Prop :=
  ∀ (i : Instr) (s t : State), exec i s = .next t →
    t.pc = s.pc + 1 ∨
    ∃ rs rt offset, i = .beq rs rt offset ∧ s.readReg rs = s.readReg rt ∧
      t.pc = s.pc + 1 + sext32 offset

/-- The ALU raises nothing for any operands (R149), and only a data access does (R142). The seven
instructions without a data access complete in every state with every operand; an instruction that
raises anything accesses data; no instruction is refused. That BEQ completes whatever its unused ALU
result is the spec's decision D1 (log 12). -/
def Obligations.NoArithmeticFaults : Prop :=
  (∀ (i : Instr) (s : State), i.dataAddress s = none → ∃ t, exec i s = .next t) ∧
  (∀ (i : Instr) (s : State) (f : Fault), exec i s = .fault f → ∃ a, i.dataAddress s = some a) ∧
  (∀ (i : Instr) (s : State) (r : Refusal), exec i s ≠ .refused r)

/-! ### Registers -/

/-- R15: register 0 reads 0 in every state; a write to it has no effect, and an instruction whose
destination it is completes (a LW where its address exists) and only advances pc; registers 1 to 31
are ordinary storage. -/
def Obligations.RegisterZeroIsHardwired : Prop :=
  (∀ s : State, s.readReg 0 = 0) ∧
  (∀ (s : State) (v : Word), s.writeReg 0 v = s) ∧
  (∀ (i : Instr) (s : State), i.writtenRegister = some 0 →
    (∀ a, i.dataAddress s = some a → a.toNat < s.config.dmemWords) →
    ∃ t, exec i s = .next t ∧ TransferResult s t (s.pc + 1)) ∧
  (∀ (s : State) (r : RegIdx) (v : Word), r ≠ 0 →
    (s.writeReg r v).readReg r = v ∧ ∀ q, q ≠ r → (s.writeReg r v).readReg q = s.readReg q)

/-- The table of R17: an instruction writes no register but the one of the column "writes"; and its
outcome depends on no register but those of the columns "uses": two states that agree on them, on pc,
data memory and sizes fault alike, or complete with the same pc, the same data memory and the same
value in the written register. -/
def Obligations.RegisterUseTable : Prop :=
  (∀ (i : Instr) (s t : State), exec i s = .next t →
    ∀ r, i.writtenRegister ≠ some r → t.readReg r = s.readReg r) ∧
  (∀ (i : Instr) (s u : State),
    (∀ r ∈ i.usedRegisters, s.readReg r = u.readReg r) →
    s.pc = u.pc → s.dmem = u.dmem → s.config = u.config →
    (∀ f, exec i s = .fault f → exec i u = .fault f) ∧
    (∀ t, exec i s = .next t → ∃ v, exec i u = .next v ∧ v.pc = t.pc ∧ v.dmem = t.dmem ∧
      ∀ r, i.writtenRegister = some r → v.readReg r = t.readReg r))

/-! ### Memory -/

/-- R46 and the data side of R33: no step changes the image; what is executed and what it does to
registers, data memory and pc never depends on the image but through the fetch, and the fetch never depends on data memory;
the seven instructions without a data access neither read nor change data memory; LW reads the one
word at its address and changes none; SW writes one word and reads none. -/
def Obligations.AddressSpacesAreSeparate : Prop :=
  (∀ s t : State, step s = .next t → t.image = s.image) ∧
  (∀ (s : State) (m : Memory), State.fetch { s with dmem := m } = s.fetch) ∧
  (∀ (i : Instr) (s : State) (image : List Word),
    (∀ t, exec i s = .next t →
      exec i { s with image := image } = .next { t with image := image }) ∧
    (∀ f, exec i s = .fault f → exec i { s with image := image } = .fault f)) ∧
  (∀ (i : Instr) (s t : State) (m : Memory), i.dataAddress s = none → exec i s = .next t →
    t.dmem = s.dmem ∧ exec i { s with dmem := m } = .next { t with dmem := m }) ∧
  (∀ (rt rs : RegIdx) (imm : Imm) (s t : State) (m : Memory), exec (.lw rt rs imm) s = .next t →
    t.dmem = s.dmem ∧
    (m.read (effectiveAddress s rs imm).toNat = s.dmem.read (effectiveAddress s rs imm).toNat →
      exec (.lw rt rs imm) { s with dmem := m } = .next { t with dmem := m })) ∧
  (∀ (rt rs : RegIdx) (imm : Imm) (s t : State) (m : Memory), exec (.sw rt rs imm) s = .next t →
    exec (.sw rt rs imm) { s with dmem := m } =
      .next { t with dmem := m.write (effectiveAddress s rs imm).toNat (s.readReg rt) })

/-- A step that changes a data word executed a SW word, and the word changed is the one at its data
address (R19: "the only instruction that changes it is SW"). -/
def Obligations.OnlySwChangesDataMemory : Prop :=
  ∀ (s t : State) (a : Nat), step s = .next t → t.dmem.read a ≠ s.dmem.read a →
    ∃ w rt rs imm, s.fetch = some w ∧ w &&& 0xFC000000#32 = 0xAC000000#32 ∧
      decode w = .ok (.sw rt rs imm) ∧ a = (effectiveAddress s rs imm).toNat ∧
      t.dmem.read a = s.readReg rt

/-- A load in the cycle after a store, at the same data address by whatever base and offset, completes
and gives the stored word (R43, R20, R176: no delay, no stale word). -/
def Obligations.StoreThenLoadReturnsStoredWord : Prop :=
  ∀ (rt rs rt' rs' : RegIdx) (imm imm' : Imm) (s t : State), exec (.sw rt rs imm) s = .next t →
    effectiveAddress t rs' imm' = effectiveAddress s rs imm →
    ∃ u, exec (.lw rt' rs' imm') t = .next u ∧
      u.readReg rt' = (if rt' = 0 then 0 else s.readReg rt) ∧ u.pc = s.pc + 1 + 1

/-- Two data memories in the canonical form that read alike at every address are equal data (the
model's own form, log 6). -/
def Obligations.CanonicalMemoryIsUnique : Prop :=
  ∀ m n : Memory, m.wf → n.wf → (∀ a, m.read a = n.read a) → m = n

/-! ### Steps and faults -/

/-- A fetched word that decodes to an instruction is executed: the step is exec of it, nothing
around it. -/
def Obligations.StepRunsDecodedInstruction : Prop :=
  ∀ (s : State) (w : Word) (i : Instr), s.fetch = some w → decode w = .ok i → step s = exec i s

/-- What every step answers, in every state: FetchOutOfRange at or beyond the image's end; else
UnsupportedInstruction for a word of no row; else DataAddressOutOfRange for a LW or SW whose address
does not exist, a LW of rt = 0 among them; else a next state, for BEQ whatever its unused ALU result;
never a refusal (R140, R148; the decisions D1, D4, D6, D12, D15 and D16, log 8, 10, 11, 12, 13, 17). -/
def Obligations.StepOutcomes : Prop :=
  (∀ s : State, s.image.length ≤ s.pc.toNat → step s = .fault (.fetchOutOfRange s.pc)) ∧
  (∀ (s : State) (w : Word), s.image[s.pc.toNat]? = some w →
    (∀ m, ¬ (opcodeRow m).matches w) → step s = .fault (.unsupportedInstruction s.pc w)) ∧
  (∀ (s : State) (w : Word) (i : Instr), s.image[s.pc.toNat]? = some w → decode w = .ok i →
    (∀ a, i.dataAddress s = some a → s.config.dmemWords ≤ a.toNat →
      step s = .fault (.dataAddressOutOfRange s.pc a)) ∧
    ((∀ a, i.dataAddress s = some a → a.toNat < s.config.dmemWords) → ∃ t, step s = .next t)) ∧
  (∀ (s : State) (r : Refusal), step s ≠ .refused r)

/-- A faulted machine makes no progress: however often the driver steps it, the state stays and every
cycle reports the same fault (R146, R147; the spec's decision D5, log 7). -/
def Obligations.FaultCommitsNothingAndRecurs : Prop :=
  ∀ (s : State) (f : Fault), step s = .fault f →
    ∀ n, ticks n s = (s, List.replicate n (some f))

/-- The ports of R70, wired to the instruction memory, realise the step: without reset the edge latches
the next state or, with a fault, nothing, and the fault port shows the fault's code; with reset the
edge takes the launch's reset values and no fault is shown; imem_addr is pc; a debug read of an
address that does not exist reads 0. All of it is the spec's decisions D5 (an aborted cycle latches
nothing, log 7), D6, D9 and D21 (log 13, 15). It holds whatever word stands on imem_data while
imem_valid is 0, which the spec leaves open (log 22). -/
def Obligations.PortsRealiseTheStep : Prop :=
  (∀ (l : Launch) (s : State) (p : PortsIn), p.rst = false →
    risingEdge l (imemAnswer s p) s = (tick s).1 ∧
    (outputs (imemAnswer s p) s).fault = ((tick s).2.map Fault.code).getD 0) ∧
  (∀ (l : Launch) (s : State) (p : PortsIn), p.rst = true →
    risingEdge l p s = State.init l ∧ (outputs p s).fault = 0) ∧
  (∀ (s : State) (p : PortsIn), (outputs p s).imemAddr = s.pc ∧ (outputs p s).dbgPc = s.pc ∧
    (outputs p s).dbgRegData = s.readReg p.dbgRegAddr ∧
    (outputs p s).dbgMemData =
      if p.dbgMemAddr.toNat < s.config.dmemWords then s.dmem.read p.dbgMemAddr.toNat else 0)

/-- The snapshot shows the latched pc, the 32 registers with register 0 as 0, and the DMEM_WORDS words
of data memory (R158, R48; pc is the spec's decision D21, log 15). -/
def Obligations.InspectionShowsLatchedState : Prop :=
  ∀ s : State, (inspect s).pc = s.pc ∧
    (∀ r : RegIdx, (inspect s).regs[r.toNat]'(r.isLt) = s.readReg r) ∧
    (inspect s).dmem.length = s.config.dmemWords ∧
    (∀ a, a < s.config.dmemWords → (inspect s).dmem[a]? = some (s.dmem.read a))

/-- The self-branch `BEQ $zero,$zero,-1` = 0x1000FFFF, fetched at any address, runs for any number of
cycles without a fault and leaves all state as it is (marked derived in R175). -/
def Obligations.SelfBranchSpinsForever : Prop :=
  ∀ (n : Nat) (s : State), s.fetch = some 0x1000FFFF#32 → RunsTo n s s

/-! ### Load, reset and invariants -/

/-- R26: the first cycle after reset fetches the first word of the image, whatever the launch. -/
def Obligations.ResetEntersAtImageZero : Prop :=
  ∀ (l : Launch) (w : Word) (rest : List Word), l.image = w :: rest →
    (State.init l).pc = 0 ∧ (State.init l).fetch = some w

/-- Reset leaves pc 0, x[0] 0 whatever is supplied for it, the other registers and data memory at the
supplied values and the image loaded (R25); `State.reset` has zero in every register and data word
(the spec's decision D8, log 4) and the sizes and empty image of log 2, 3 and 5. -/
def Obligations.ResetLeavesLaunchValues : Prop :=
  (∀ l : Launch, (State.init l).pc = 0 ∧ (State.init l).readReg 0 = 0 ∧
    (∀ r : RegIdx, r ≠ 0 → (State.init l).readReg r = l.initRegs[r.toNat]'(r.isLt)) ∧
    (∀ a, (State.init l).dmem.read a = l.initDmem.read a) ∧
    (State.init l).image = l.image ∧ (State.init l).config = l.config) ∧
  State.reset.pc = 0 ∧ (∀ r, State.reset.readReg r = 0) ∧ (∀ a, State.reset.dmem.read a = 0) ∧
  State.reset.image = [] ∧ State.reset.config.dmemWords = 1024 ∧
  State.reset.config.imemWords = 2 ^ 32

/-- The load interface rejects exactly a malformed image, one of more than IMEM_WORDS words or with an
element outside 0 .. 2^32-1; from any other the core starts with exactly that image and the launch's
values: pc 0, register 0 zero whatever is supplied for it, every other register and every data word as
supplied, the sizes the launch's (R144, R173; the spec's decision D17, log 13). -/
def Obligations.LoadRejectsExactlyMalformedImages : Prop :=
  ∀ (l : Launch) (words : List Int),
    (load l words = .rejected .malformedImage ↔
      l.config.imemWords < words.length ∨ ∃ w ∈ words, w < 0 ∨ 2 ^ 32 ≤ w) ∧
    (words.length ≤ l.config.imemWords → (∀ w ∈ words, 0 ≤ w ∧ w < 2 ^ 32) →
      ∃ s, load l words = .started s ∧
        s.image.map (fun w => (w.toNat : Int)) = words ∧ s.pc = 0 ∧ s.config = l.config ∧
        s.readReg 0 = 0 ∧ (∀ r : RegIdx, r ≠ 0 → s.readReg r = l.initRegs[r.toNat]'(r.isLt)) ∧
        ∀ a, s.dmem.read a = l.initDmem.read a)

/-- The invariant holds at State.reset (its canonical memory and capacity bound are the model's,
log 3, 6, 20). -/
def Obligations.InvariantHoldsAtReset : Prop := MachineInv State.reset

/-- The invariant holds in the state any load starts from, given sizes in range and initial data in the
canonical form and inside the data address space. -/
def Obligations.InvariantHoldsAfterLoad : Prop :=
  ∀ (l : Launch) (words : List Int) (s : State), l.config.valid → l.initDmem.wf →
    l.initDmem.below l.config.dmemWords → load l words = .started s → MachineInv s

/-- Every step keeps the invariant, from every state that has it: legal sizes, an image within the
capacity, data memory canonical and inside its address space, slot 0 of the register file zero. -/
def Obligations.InvariantKeptByEveryStep : Prop :=
  ∀ s t : State, MachineInv s → step s = .next t → MachineInv t

/-- A run of any length from a state that has the invariant keeps it, the program and the sizes. -/
def Obligations.RunsKeepInvariantAndProgram : Prop :=
  ∀ (n : Nat) (s t : State), MachineInv s → RunsTo n s t →
    MachineInv t ∧ t.image = s.image ∧ t.config = s.config
end

