-- ==== Sys2Proof/Laws/Assembly.lean ====
section
/-! SUPPORT. The operand checks of an assembly line, each as the proposition it decides. -/

namespace Sys2Proof

/-- The check of a register operand decides its range. -/
theorem AsmReg.inRange_iff_legal (r : AsmReg) : r.inRange = true ↔ r.Legal := by
  cases r <;> simp [AsmReg.inRange, AsmReg.Legal]; omega

/-- A register operand in range stands for the register its number names. -/
theorem AsmReg.denotes_number {r : AsmReg} (h : r.Legal) : r.Denotes r.number := by
  cases r with
  | num n => simp only [AsmReg.Legal] at h; simp [AsmReg.Denotes, AsmReg.number]; omega
  | name _ => rfl

theorem signedImmInRange_iff (v : Int) : signedImmInRange v = true ↔ -32768 ≤ v ∧ v ≤ 32767 := by
  simp [signedImmInRange]

theorem unsignedImmInRange_iff (v : Int) : unsignedImmInRange v = true ↔ 0 ≤ v ∧ v ≤ 65535 := by
  simp [unsignedImmInRange]

/-- What assembles is a well-formed line, to the word of its instruction. -/
theorem assemble_eq_some {pc : Nat} {line : AsmLine} {w : Word} :
    assemble pc line = some w ↔ line.wellFormed pc = true ∧ encode (line.toInstr pc) = w := by
  by_cases h : line.wellFormed pc <;> simp [assemble, h]

end Sys2Proof
end

