-- ==== Sys2Proof/Laws/Memory.lean ====
section
/-! SUPPORT. Word storage: reading after writing, and that every operation keeps the canonical form
and the bound on addresses. -/

namespace Sys2Proof.Machine

@[simp] theorem Memory.read_nil (a : Nat) : Memory.read [] a = 0 := rfl

theorem Memory.read_erase (m : Memory) (a b : Nat) :
    (m.erase a).read b = if b = a then 0 else m.read b := by
  induction m with
  | nil => simp [Memory.erase, Memory.read, Memory.unlisted]
  | cons c rest ih =>
    obtain ⟨k, v⟩ := c
    simp only [Memory.erase] at ih
    by_cases hk : k = a <;> simp [Memory.erase, Memory.read, hk, ih]
    · split <;> simp_all [eq_comm]
    · by_cases hb : k = b <;> simp_all

theorem Memory.read_insert (m : Memory) (a b : Nat) (v : Word) (h : ∀ c ∈ m, c.1 ≠ a) :
    (m.insert a v).read b = if b = a then v else m.read b := by
  induction m with
  | nil => simp [Memory.insert, Memory.read, eq_comm]
  | cons c rest ih =>
    obtain ⟨k, u⟩ := c
    have hk : k ≠ a := h (k, u) (by simp)
    have ih := ih fun c hc => h c (by simp [hc])
    by_cases hlt : a < k
    · simp [Memory.insert, Memory.read, hlt, @eq_comm _ a b]
    · simp only [Memory.insert, hlt, if_false, Memory.read, ih]
      by_cases hb : b = a
      · simp [hb, hk]
      · simp [hb]

theorem Memory.mem_erase {m : Memory} {a : Nat} {c : Cell} :
    c ∈ m.erase a ↔ c ∈ m ∧ c.1 ≠ a := by simp [Memory.erase]

theorem Memory.mem_insert {m : Memory} {a : Nat} {v : Word} {c : Cell} :
    c ∈ m.insert a v ↔ c = (a, v) ∨ c ∈ m := by
  induction m with
  | nil => simp [Memory.insert]
  | cons d rest ih =>
    obtain ⟨k, u⟩ := d
    by_cases hlt : a < k
    · simp [Memory.insert, hlt]
    · simp [Memory.insert, hlt, ih]; tauto

/-- Reading after a write, at every address and for every list of cells. -/
theorem Memory.read_write (m : Memory) (a b : Nat) (v : Word) :
    (m.write a v).read b = if b = a then v else m.read b := by
  unfold Memory.write
  split
  · rename_i hv
    rw [Memory.read_erase, hv]; rfl
  · rw [Memory.read_insert _ _ _ _ fun c hc => (Memory.mem_erase.mp hc).2, Memory.read_erase]
    split <;> simp_all

@[simp] theorem Memory.read_write_same (m : Memory) (a : Nat) (v : Word) :
    (m.write a v).read a = v := by simp [Memory.read_write]

theorem Memory.read_write_other (m : Memory) {a b : Nat} (v : Word) (h : b ≠ a) :
    (m.write a v).read b = m.read b := by simp [Memory.read_write, h]

theorem Memory.erase_wf {m : Memory} (h : m.wf) (a : Nat) : (m.erase a).wf :=
  ⟨h.1.filter _, fun c hc => h.2 c (Memory.mem_erase.mp hc).1⟩

theorem Memory.insert_sorted {m : Memory} (h : m.Pairwise fun c d => c.1 < d.1) (a : Nat) (v : Word)
    (ha : ∀ c ∈ m, c.1 ≠ a) : (m.insert a v).Pairwise fun c d => c.1 < d.1 := by
  induction m with
  | nil => simp [Memory.insert]
  | cons d rest ih =>
    obtain ⟨k, u⟩ := d
    obtain ⟨hd, hrest⟩ := List.pairwise_cons.mp h
    have hk : k ≠ a := ha (k, u) (by simp)
    have ih := ih hrest fun c hc => ha c (by simp [hc])
    by_cases hlt : a < k
    · simp only [Memory.insert, hlt, if_true]
      refine List.pairwise_cons.mpr ⟨fun c hc => ?_, h⟩
      rcases List.mem_cons.mp hc with rfl | hc
      · exact hlt
      · exact Nat.lt_trans hlt (hd c hc)
    · simp only [Memory.insert, hlt, if_false]
      refine List.pairwise_cons.mpr ⟨fun c hc => ?_, ih⟩
      rcases Memory.mem_insert.mp hc with rfl | hc
      · show k < a; omega
      · exact hd c hc

/-- A write keeps the canonical form. -/
theorem Memory.write_wf {m : Memory} (h : m.wf) (a : Nat) (v : Word) : (m.write a v).wf := by
  unfold Memory.write
  split
  · exact Memory.erase_wf h a
  · rename_i hv
    refine ⟨Memory.insert_sorted (Memory.erase_wf h a).1 a v fun c hc => (Memory.mem_erase.mp hc).2,
      fun c hc => ?_⟩
    rcases Memory.mem_insert.mp hc with rfl | hc
    · exact hv
    · exact (Memory.erase_wf h a).2 c hc

/-- A write at an address below the bound keeps every address below it. -/
theorem Memory.write_below {m : Memory} {bound : Nat} (h : m.below bound) {a : Nat} (ha : a < bound)
    (v : Word) : (m.write a v).below bound := by
  intro c hc
  unfold Memory.write at hc
  split at hc
  · exact h c (Memory.mem_erase.mp hc).1
  · rcases Memory.mem_insert.mp hc with rfl | hc
    · exact ha
    · exact h c (Memory.mem_erase.mp hc).1

end Sys2Proof.Machine
end

