-- ==== Sys2Proof/Laws/State.lean ====
section
/-! SUPPORT. The fields of each state update: one lemma per field, so that no later proof unfolds a
record update. -/

namespace Sys2Proof.Machine

section Init
variable (l : Launch)
@[simp] theorem State.init_pc : (State.init l).pc = 0 := rfl
@[simp] theorem State.init_regs : (State.init l).regs = l.initRegs.set 0 0 := rfl
@[simp] theorem State.init_dmem : (State.init l).dmem = l.initDmem := rfl
@[simp] theorem State.init_image : (State.init l).image = l.image := rfl
@[simp] theorem State.init_config : (State.init l).config = l.config := rfl
end Init

section SetPc
variable (s : State) (t : Word)
@[simp] theorem State.setPc_pc : (s.setPc t).pc = t := rfl
@[simp] theorem State.setPc_regs : (s.setPc t).regs = s.regs := rfl
@[simp] theorem State.setPc_dmem : (s.setPc t).dmem = s.dmem := rfl
@[simp] theorem State.setPc_image : (s.setPc t).image = s.image := rfl
@[simp] theorem State.setPc_config : (s.setPc t).config = s.config := rfl
end SetPc

section Advance
variable (s : State)
@[simp] theorem State.advance_pc : s.advance.pc = s.pc + 1 := rfl
@[simp] theorem State.advance_regs : s.advance.regs = s.regs := rfl
@[simp] theorem State.advance_dmem : s.advance.dmem = s.dmem := rfl
@[simp] theorem State.advance_image : s.advance.image = s.image := rfl
@[simp] theorem State.advance_config : s.advance.config = s.config := rfl
end Advance

section WriteReg
variable (s : State) (r : RegIdx) (v : Word)
@[simp] theorem State.writeReg_pc : (s.writeReg r v).pc = s.pc := by unfold State.writeReg; split <;> rfl
@[simp] theorem State.writeReg_dmem : (s.writeReg r v).dmem = s.dmem := by unfold State.writeReg; split <;> rfl
@[simp] theorem State.writeReg_image : (s.writeReg r v).image = s.image := by unfold State.writeReg; split <;> rfl
@[simp] theorem State.writeReg_config : (s.writeReg r v).config = s.config := by unfold State.writeReg; split <;> rfl
@[simp] theorem State.writeReg_zero : s.writeReg 0 v = s := rfl
end WriteReg

section CommitReg
variable (s : State) (r : RegIdx) (v : Word)
@[simp] theorem State.commitReg_pc : (s.commitReg r v).pc = s.pc + 1 := by simp [State.commitReg]
@[simp] theorem State.commitReg_regs : (s.commitReg r v).regs = (s.writeReg r v).regs := rfl
@[simp] theorem State.commitReg_dmem : (s.commitReg r v).dmem = s.dmem := by simp [State.commitReg]
@[simp] theorem State.commitReg_image : (s.commitReg r v).image = s.image := by simp [State.commitReg]
@[simp] theorem State.commitReg_config : (s.commitReg r v).config = s.config := by simp [State.commitReg]
end CommitReg

section WithFetchWord
variable (s : State) (nbits w : Nat)
@[simp] theorem State.withFetchWord_pc : (s.withFetchWord nbits w).pc = s.pc := rfl
@[simp] theorem State.withFetchWord_regs : (s.withFetchWord nbits w).regs = s.regs := rfl
@[simp] theorem State.withFetchWord_dmem : (s.withFetchWord nbits w).dmem = s.dmem := rfl
@[simp] theorem State.withFetchWord_config : (s.withFetchWord nbits w).config = s.config := rfl
end WithFetchWord

end Sys2Proof.Machine
end

