-- ==== Sys2Proof/Laws/Ops.lean ====
section
/-! SUPPORT. One lemma per shared operation, and what a step and each memory instruction can answer. -/

namespace Sys2Proof.Machine

/-- Reads of the register file depend on its slots alone. -/
theorem State.readReg_congr {s t : State} (h : s.regs = t.regs) (r : RegIdx) :
    s.readReg r = t.readReg r := by simp [State.readReg, h]

@[simp] theorem State.readReg_setPc (s : State) (t : Word) (r : RegIdx) :
    (s.setPc t).readReg r = s.readReg r := rfl

@[simp] theorem State.readReg_advance (s : State) (r : RegIdx) :
    s.advance.readReg r = s.readReg r := rfl

/-- What a register write changes: the written register alone, and register 0 never. -/
theorem State.readReg_writeReg (s : State) (r q : RegIdx) (v : Word) :
    (s.writeReg r v).readReg q = if q = r ∧ r ≠ 0 then v else s.readReg q := by
  by_cases hr : r = 0#5
  · simp [State.writeReg, hr]
  · by_cases hq : q = 0#5
    · subst hq
      simp [State.readReg, Ne.symm hr]
    · have hiff : r.toNat = q.toNat ↔ q = r := by rw [BitVec.toNat_inj]; exact eq_comm
      simp [State.readReg, State.writeReg, hr, hq, Vector.getElem_set, hiff]

/-- A register result is committed: the written register, no other. -/
theorem State.readReg_commitReg (s : State) (r q : RegIdx) (v : Word) :
    (s.commitReg r v).readReg q = if q = r ∧ r ≠ 0 then v else s.readReg q :=
  State.readReg_writeReg s r q v

/-- Slot 0 is never written through the register file's port. -/
theorem State.writeReg_slot_zero (s : State) (r : RegIdx) (v : Word) :
    (s.writeReg r v).regs[0] = s.regs[0] := by
  by_cases hr : r = 0#5
  · simp [State.writeReg, hr]
  · have : r.toNat ≠ 0 := fun h => hr (BitVec.eq_of_toNat_eq h)
    simp [State.writeReg, hr, this]

/-- A data read answers exactly where the address exists. -/
theorem State.memRead_eq_some {s : State} {a v : Word} :
    s.memRead a = some v ↔ s.dataAddressExists a ∧ s.dmem.read a.toNat = v := by
  unfold State.memRead; split <;> simp_all

theorem State.memRead_eq_none {s : State} {a : Word} :
    s.memRead a = none ↔ ¬ s.dataAddressExists a := by
  unfold State.memRead; split <;> simp_all

/-- A data write answers exactly where the address exists, and changes data memory alone. -/
theorem State.memWrite_eq_some {s t : State} {a v : Word} :
    s.memWrite a v = some t ↔
      s.dataAddressExists a ∧ t = { s with dmem := s.dmem.write a.toNat v } := by
  unfold State.memWrite; split <;> simp_all [eq_comm]

theorem State.memWrite_eq_none {s : State} {a v : Word} :
    s.memWrite a v = none ↔ ¬ s.dataAddressExists a := by
  unfold State.memWrite; split <;> simp_all

/-- A data write keeps the canonical form, and the addresses inside the data address space. -/
theorem State.memWrite_wf {s t : State} {a v : Word} (h : s.memWrite a v = some t) (hw : s.dmem.wf) :
    t.dmem.wf := by
  obtain ⟨-, rfl⟩ := State.memWrite_eq_some.mp h
  exact Memory.write_wf hw _ _

theorem State.memWrite_below {s t : State} {a v : Word} (h : s.memWrite a v = some t)
    (hb : s.dmem.below s.config.dmemWords) : t.dmem.below t.config.dmemWords := by
  obtain ⟨ha, rfl⟩ := State.memWrite_eq_some.mp h
  exact Memory.write_below hb ha v

/-- The memory of `State.reset` has the canonical form. -/
theorem State.reset_dmem_wf : State.reset.dmem.wf := by decide

/-- A fetch answers exactly where pc is inside the image. -/
theorem State.fetch_eq_none {s : State} : s.fetch = none ↔ s.image.length ≤ s.pc.toNat := by
  simp [State.fetch]

/-- The word placed is the word found. -/
theorem placeInstr_get (image : List Word) (a : Nat) (w : Word) :
    (placeInstr image a w)[a]? = some w := by
  unfold placeInstr
  split
  · simp_all
  · rename_i h
    have hle : image.length ≤ a := Nat.le_of_not_lt h
    rw [List.getElem?_append_right (by simp; omega)]
    simp [hle]

/-- `withFetchWord` places the word where the next step fetches. -/
theorem State.fetch_withFetchWord (s : State) (nbits w : Nat) :
    (s.withFetchWord nbits w).fetch = some (BitVec.ofNat 32 (w % 2 ^ nbits)) :=
  placeInstr_get _ _ _

/-- LW, once and for all: the load where its address exists, the fault where it does not. -/
theorem execLw_eq (rt rs : RegIdx) (imm : Imm) (s : State) :
    execLw rt rs imm s =
      if s.dataAddressExists (effectiveAddress s rs imm) then
        .next (s.commitReg rt (s.dmem.read (effectiveAddress s rs imm).toNat))
      else .fault (.dataAddressOutOfRange s.pc (effectiveAddress s rs imm)) := by
  unfold execLw State.memRead
  by_cases h : s.dataAddressExists (effectiveAddress s rs imm) <;> simp only [h, if_true, if_false, raise]

/-- SW, once and for all: the store where its address exists, the fault where it does not. -/
theorem execSw_eq (rt rs : RegIdx) (imm : Imm) (s : State) :
    execSw rt rs imm s =
      if s.dataAddressExists (effectiveAddress s rs imm) then
        .next (State.advance { s with
          dmem := s.dmem.write (effectiveAddress s rs imm).toNat (s.readReg rt) })
      else .fault (.dataAddressOutOfRange s.pc (effectiveAddress s rs imm)) := by
  unfold execSw State.memWrite
  by_cases h : s.dataAddressExists (effectiveAddress s rs imm) <;> simp only [h, if_true, if_false, raise]

/-- A step that answers a next state ran the instruction it fetched and decoded. -/
theorem step_next {s t : State} (h : step s = .next t) :
    ∃ w i, s.fetch = some w ∧ decode w = .ok i ∧ exec i s = .next t := by
  unfold step at h
  split at h
  · simp [raise] at h
  · rename_i w hw
    split at h
    · rename_i i hi
      exact ⟨w, i, hw, hi, h⟩
    · simp [raise] at h

end Sys2Proof.Machine
end

