-- ==== Sys2Proof/Laws/Exec.lean ====
section
/-! SUPPORT. What exec can answer: the three shapes of a next state, and the one fault. -/

namespace Sys2Proof.Machine

/-- Raising a fault answers it. -/
@[simp] theorem raise_eq (f : Fault) : raise f = .fault f := rfl

/-- The effective address depends on the base register alone. -/
theorem effectiveAddress_congr {s t : State} {rs : RegIdx} (h : s.readReg rs = t.readReg rs) (imm : Imm) :
    effectiveAddress s rs imm = effectiveAddress t rs imm := by simp [effectiveAddress, h]

/-- A next state of exec: a register result with pc + 1 and every data address of the instruction in
range, or SW's store, or BEQ's transfer. -/
theorem exec_next {i : Instr} {s t : State} (h : exec i s = .next t) :
    (∃ r v, i.writtenRegister = some r ∧ t = s.commitReg r v ∧
      ∀ a, i.dataAddress s = some a → s.dataAddressExists a) ∨
    (∃ rt rs imm, i = .sw rt rs imm ∧ s.dataAddressExists (effectiveAddress s rs imm) ∧
      t = State.advance { s with
        dmem := s.dmem.write (effectiveAddress s rs imm).toNat (s.readReg rt) }) ∨
    (∃ rs rt offset, i = .beq rs rt offset ∧
      t = if s.readReg rs = s.readReg rt then s.setPc (branchTarget s.pc offset) else s.advance) := by
  cases i
  case lw rt rs imm =>
    simp only [exec, execLw_eq] at h
    split at h
    · rename_i ha
      injection h with h
      exact .inl ⟨_, _, rfl, h.symm, fun a e => by cases e; exact ha⟩
    · cases h
  case sw rt rs imm =>
    simp only [exec, execSw_eq] at h
    split at h
    · rename_i ha
      injection h with h
      exact .inr (.inl ⟨_, _, _, rfl, ha, h.symm⟩)
    · cases h
  case beq rs rt offset =>
    injection h with h
    exact .inr (.inr ⟨_, _, _, rfl, h.symm⟩)
  all_goals
    injection h with h
    exact .inl ⟨_, _, rfl, h.symm, fun a e => by cases e⟩

/-- A fault of exec: a data address that does not exist, reported with pc. -/
theorem exec_fault {i : Instr} {s : State} {f : Fault} (h : exec i s = .fault f) :
    ∃ a, i.dataAddress s = some a ∧ ¬ s.dataAddressExists a ∧ f = .dataAddressOutOfRange s.pc a := by
  cases i
  case lw rt rs imm =>
    simp only [exec, execLw_eq] at h
    split at h
    · cases h
    · rename_i ha
      injection h with h
      exact ⟨_, rfl, ha, h.symm⟩
  case sw rt rs imm =>
    simp only [exec, execSw_eq] at h
    split at h
    · cases h
    · rename_i ha
      injection h with h
      exact ⟨_, rfl, ha, h.symm⟩
  all_goals cases h

end Sys2Proof.Machine
end

