-- ==== Sys2Proof/Laws/PerInstr.lean ====
section
/-! SUPPORT. A statement per instruction about its syntax: the encoder's word matches the row of the
opcode map that bears the instruction's mnemonic, and holds zero in the ignored bits
(30_encoding.md R57, R60). -/

namespace Sys2Proof.Laws.RowPattern

/-- The word an instruction is encoded to is of its own row, its ignored bits zero. -/
def Statement (i : Instr) : Prop :=
  (opcodeRow i.mnemonic).matches (encode i) ∧ encode i &&& (opcodeRow i.mnemonic).ignored = 0

/-- Splits a statement about a word of five fields into its bits. -/
theorem bits_of_row {w mask pattern : Word}
    (h : ∀ i, i < 32 → (w.getLsbD i && mask.getLsbD i) = pattern.getLsbD i) : w &&& mask = pattern := by
  apply BitVec.eq_of_getLsbD_eq
  intro i hi
  simpa using h i hi

theorem encodeR_row (rs rt rd : RegIdx) (funct : BitVec 6) :
    encodeR rs rt rd funct &&& 0xFC00003F#32 = funct.zeroExtend 32 ∧
      encodeR rs rt rd funct &&& 0x000007C0#32 = 0 := by
  constructor <;> apply bits_of_row <;> intro i hi <;> interval_cases i <;>
    simp [encodeR]

theorem encodeI_row (opcode : BitVec 6) (rs rt : RegIdx) (imm : Imm) :
    encodeI opcode rs rt imm &&& 0xFC000000#32 = opcode.zeroExtend 32 <<< 26 := by
  apply bits_of_row; intro i hi; interval_cases i <;> simp [encodeI]

theorem encodeI_rs_zero (opcode : BitVec 6) (rt : RegIdx) (imm : Imm) :
    encodeI opcode 0#5 rt imm &&& 0x03E00000#32 = 0 := by
  apply bits_of_row; intro i hi; interval_cases i <;> simp [encodeI]

theorem add (rd rs rt : RegIdx) : Statement (.add rd rs rt) := encodeR_row rs rt rd 0x20#6
theorem and (rd rs rt : RegIdx) : Statement (.and rd rs rt) := encodeR_row rs rt rd 0x24#6
theorem slt (rd rs rt : RegIdx) : Statement (.slt rd rs rt) := encodeR_row rs rt rd 0x2A#6
theorem addi (rt rs : RegIdx) (imm : Imm) : Statement (.addi rt rs imm) :=
  ⟨encodeI_row 0x08#6 rs rt imm, BitVec.and_zero⟩
theorem lui (rt : RegIdx) (imm : Imm) : Statement (.lui rt imm) :=
  ⟨encodeI_row 0x0F#6 0#5 rt imm, encodeI_rs_zero 0x0F#6 rt imm⟩
theorem ori (rt rs : RegIdx) (imm : Imm) : Statement (.ori rt rs imm) :=
  ⟨encodeI_row 0x0D#6 rs rt imm, BitVec.and_zero⟩
theorem lw (rt rs : RegIdx) (imm : Imm) : Statement (.lw rt rs imm) :=
  ⟨encodeI_row 0x23#6 rs rt imm, BitVec.and_zero⟩
theorem sw (rt rs : RegIdx) (imm : Imm) : Statement (.sw rt rs imm) :=
  ⟨encodeI_row 0x2B#6 rs rt imm, BitVec.and_zero⟩
theorem beq (rs rt : RegIdx) (offset : Imm) : Statement (.beq rs rt offset) :=
  ⟨encodeI_row 0x04#6 rs rt offset, BitVec.and_zero⟩

end Sys2Proof.Laws.RowPattern
end

