-- ==== Sys2Proof/Laws/Ports.lean ====
section
/-! SUPPORT. What the fetch port delivers, and that its data word is not looked at while it is invalid. -/

namespace Sys2Proof.Machine

/-- The instruction memory's answer delivers what the fetch finds. -/
@[simp] theorem imemAnswer_fetched (s : State) (p : PortsIn) : (imemAnswer s p).fetched = s.fetch := by
  cases h : s.fetch <;> simp [PortsIn.fetched, imemAnswer, h]

@[simp] theorem imemAnswer_rst (s : State) (p : PortsIn) : (imemAnswer s p).rst = p.rst := rfl

/-- With imem_valid 0 the word on imem_data reaches no output and no state (log 22). -/
theorem imemData_unused {p : PortsIn} (h : p.imemValid = false) (w : Word) (l : Launch) (s : State) :
    outputs { p with imemData := w } s = outputs p s ∧
      risingEdge l { p with imemData := w } s = risingEdge l p s := by
  simp [outputs, risingEdge, faultPort, PortsIn.fetched, h]

end Sys2Proof.Machine
end

