-- ==== Sys2Proof/Laws/Run.lean ====
section
/-! SUPPORT. Runs of many steps, and that they are the host's runs. -/

namespace Sys2Proof

open Sys2Proof.Machine

theorem runsTo_succ {n : Nat} {s t : State} :
    RunsTo (n + 1) s t ↔ ∃ u, step s = .next u ∧ RunsTo n u t := Iff.rfl

/-- A fault-free run is a run of the host's own driver that ends in a next state. -/
theorem runsTo_iff_core_run {n : Nat} {s t : State} :
    RunsTo n s t ↔ Host.Core.run core n s = .next t := by
  induction n generalizing s with
  | zero => exact ⟨fun h => congrArg _ h, fun h => by injection h⟩
  | succ n ih =>
    have hrun := Host.Core.run.eq_2 core s n
    cases hs : step s with
    | next u =>
      rw [show core.step s = .next u from hs] at hrun
      simp only [runsTo_succ, hs, Host.Outcome.next.injEq, exists_eq_left', ih]
      exact iff_of_eq (congrArg (· = Host.Outcome.next t) hrun.symm)
    | fault f =>
      rw [show core.step s = .fault f from hs] at hrun
      simp only [runsTo_succ, hs, reduceCtorEq, false_and, exists_false, false_iff]
      exact fun h => by cases hrun.symm.trans h
    | refused r =>
      rw [show core.step s = .refused r from hs] at hrun
      simp only [runsTo_succ, hs, reduceCtorEq, false_and, exists_false, false_iff]
      exact fun h => by cases hrun.symm.trans h

end Sys2Proof
end

