-- ==== Sys2Proof/Tests/Slice0.lean ====
section
/-! SUPPORT. Tests with expected results from spec/95_test_vectors.md and the rules' own examples, and
a witness for the hypotheses of every statement that has some. -/

namespace Sys2Proof.Tests

open Sys2Proof Sys2Proof.Machine

/-- A small state: registers and data words given, the rest zero, DMEM_WORDS 1024. -/
def sample (pc : Word) (image : List Word) (regs : List (RegIdx × Word)) (mem : List (Nat × Word)) :
    State :=
  regs.foldl (fun s p => s.writeReg p.1 p.2)
    { State.reset with
      pc := pc
      image := image
      dmem := mem.foldl (fun m c => m.write c.1 c.2) [] }

/-- One instruction word at pc 0. -/
def one (w : Word) (regs : List (RegIdx × Word)) (mem : List (Nat × Word)) : State :=
  sample 0 [w] regs mem

def nextHas (o : StepResult) (p : State → Bool) : Bool :=
  match o with
  | .next t => p t
  | _ => false

def faultsWith (o : StepResult) (f : Fault) : Bool :=
  match o with
  | .fault g => decide (g = f)
  | _ => false

/-! ### Well-formedness of assembly lines: an ill-formed line for each check -/

theorem test_reg_32_refused : (AsmReg.num 32).inRange = false := by decide
theorem test_signed_imm_refused :
    signedImmInRange 32768 = false ∧ signedImmInRange (-32769) = false := by decide
theorem test_unsigned_imm_refused :
    unsignedImmInRange 65536 = false ∧ unsignedImmInRange (-1) = false := by decide
theorem test_line_bad_register_refused :
    (AsmLine.add (.num 32) (.num 0) (.num 0)).wellFormed 0 = false := by decide
theorem test_line_bad_addi_refused :
    (AsmLine.addi (.name .t0) (.name .zero) 32768).wellFormed 0 = false := by decide
theorem test_line_bad_ori_refused :
    (AsmLine.ori (.name .t0) (.name .zero) (-1)).wellFormed 0 = false := by decide
theorem test_line_far_label_refused :
    (AsmLine.beq (.num 0) (.num 0) (.label 40000)).wellFormed 0 = false := by decide
/-- 95_test_vectors.md P2, addresses 2 and 5, and V-ADD-1. -/
theorem test_assemble :
    assemble 2 (.beq (.name .t0) (.name .zero) (.label 6)) = some 0x11000003 ∧
    assemble 5 (.beq (.name .zero) (.name .zero) (.label 2)) = some 0x1000FFFC ∧
    assemble 0 (.add (.name .t2) (.name .t0) (.name .t1)) = some 0x01095020 := by decide

/-! ### Decoding: words written out bit by bit from the encodings of 41 to 44 -/

/-- `000000 sssss ttttt ddddd ----- 100000`, rs 8, rt 9, rd 10, shamt 31 (R100, V-ADD-7). -/
theorem test_decode_add : decode 0b00000001000010010101011111100000#32 = .ok (.add 10 8 9) := by decide
/-- `000000 sssss ttttt ddddd ----- 100100`, rs 8, rt 9, rd 10 (R101, V-AND-2). -/
theorem test_decode_and : decode 0b00000001000010010101000000100100#32 = .ok (.and 10 8 9) := by decide
/-- `000000 sssss ttttt ddddd ----- 101010`, rs 9, rt 10, rd 11 (R102, V-DEC-1). -/
theorem test_decode_slt : decode 0b00000001001010100101100000101010#32 = .ok (.slt 11 9 10) := by decide
/-- `001000 sssss ttttt i`, rs 8, rt 9, immediate 0xFFFF (R110, V-ADDI-7). -/
theorem test_decode_addi : decode 0b00100001000010011111111111111111#32 = .ok (.addi 9 8 0xFFFF) := by decide
/-- `001111 ----- ttttt i`, rs 9 ignored, rt 8, immediate 0x1234 (R111, V-LUI-5). -/
theorem test_decode_lui : decode 0b00111101001010000001001000110100#32 = .ok (.lui 8 0x1234) := by decide
/-- `001101 sssss ttttt i`, rs 8, rt 9, immediate 0x00F0 (R112, V-ORI-5). -/
theorem test_decode_ori : decode 0b00110101000010010000000011110000#32 = .ok (.ori 9 8 0x00F0) := by decide
/-- `100011 sssss ttttt i`, rs 8, rt 9, immediate 3 (R120, V-LW-2). -/
theorem test_decode_lw : decode 0b10001101000010010000000000000011#32 = .ok (.lw 9 8 3) := by decide
/-- `101011 sssss ttttt i`, rs 8, rt 11, immediate 0xFFFF (R121, V-DEC-2). -/
theorem test_decode_sw : decode 0b10101101000010111111111111111111#32 = .ok (.sw 11 8 0xFFFF) := by decide
/-- `000100 sssss ttttt i`, rs 8, rt 9, immediate 0xFFFD (R130, V-DEC-8). -/
theorem test_decode_beq : decode 0b00010001000010011111111111111101#32 = .ok (.beq 8 9 0xFFFD) := by decide
/-- V-DEC-1, V-DEC-2 and V-DEC-9. -/
theorem test_fields :
    fieldsOf 0x012A582A = ⟨0x00, 9, 10, 11, 0, 0x2A, 0x582A⟩ ∧
    fieldsOf 0xAD0BFFFF = ⟨0x2B, 8, 11, 31, 31, 0x3F, 0xFFFF⟩ ∧
    fieldsOf 0x80000000 = ⟨0x20, 0, 0, 0, 0, 0x00, 0x0000⟩ := by decide
/-- The unsupported words of 95_test_vectors.md Part 3. -/
theorem test_unsupported_words :
    ([0x00000000, 0xFFFFFFFF, 0x00000022, 0x00000025, 0x00000021, 0x0000001F, 0x0000002B,
        0x00000008, 0x0000000C, 0x04000000, 0x08000000, 0x0C000000, 0x14000000, 0x24000000,
        0x28000000, 0x30000000, 0x2C000000] : List Word).all
      (fun w => (decode w).toOption.isNone) = true := by decide
/-- The immediate table of 95_test_vectors.md. -/
theorem test_immediates :
    sext32 0x8000 = 0xFFFF8000 ∧ zext32 0x8000 = 0x00008000 ∧ upperImm 0x8000 = 0x80000000 ∧
    sext32 0x7FFF = 0x00007FFF ∧ zext32 0xFFFF = 0x0000FFFF ∧ upperImm 0xFFFC = 0xFFFC0000 := by decide

/-! ### One step per vector: the word is fetched, decoded and executed -/

/-- V-ADD-2 (no trap) and V-ADD-6 (source is destination). -/
theorem test_add_wraps :
    nextHas (step (one 0x01095020 [(8, 0x7FFFFFFF), (9, 1)] []))
      (fun t => t.readReg 10 == 0x80000000 && t.pc == 1) = true := by decide
theorem test_add_doubles :
    nextHas (step (one 0x01084020 [(8, 0x40000001)] []))
      (fun t => t.readReg 8 == 0x80000002) = true := by decide
/-- V-AND-2 and V-AND-3. -/
theorem test_and_sign_bit :
    nextHas (step (one 0x01095024 [(8, 0xFFFFFFFF), (9, 0x80000001)] []))
      (fun t => t.readReg 10 == 0x80000001 && t.pc == 1) = true := by decide
theorem test_and_pattern :
    nextHas (step (one 0x01095024 [(8, 0xF0F0F0F0), (9, 0x0FF00FF0), (10, 7)] []))
      (fun t => t.readReg 10 == 0x00F000F0) = true := by decide
/-- V-SLT-3 (INT32_MIN below INT32_MAX) and V-SLT-16 (the old value is compared). -/
theorem test_slt_extremes :
    nextHas (step (one 0x0109502A [(8, 0x80000000), (9, 0x7FFFFFFF), (10, 0x99)] []))
      (fun t => t.readReg 10 == 1 && t.pc == 1) = true := by decide
theorem test_slt_overlap :
    nextHas (step (one 0x0109402A [(8, 0xFFFFFFFF)] []))
      (fun t => t.readReg 8 == 1) = true := by decide
/-- V-ADDI-7 (no trap) and V-ADDI-9 (register 0). -/
theorem test_addi_wraps :
    nextHas (step (one 0x2109FFFF [(8, 0x80000000)] []))
      (fun t => t.readReg 9 == 0x7FFFFFFF && t.pc == 1) = true := by decide
theorem test_addi_to_zero :
    nextHas (step (one 0x21000001 [(8, 9)] []))
      (fun t => t.readReg 0 == 0 && t.readReg 8 == 9 && t.pc == 1) = true := by decide
/-- V-LUI-5 (rs ignored) and V-LUI-6 (the old value is gone). -/
theorem test_lui_ignores_rs :
    nextHas (step (one 0x3D281234 [(9, 0xFFFFFFFF)] []))
      (fun t => t.readReg 8 == 0x12340000 && t.pc == 1) = true := by decide
theorem test_lui_replaces :
    nextHas (step (one 0x3C0800FF [(8, 0xFFFFFFFF)] []))
      (fun t => t.readReg 8 == 0x00FF0000) = true := by decide
/-- V-ORI-2 (zero-extended) and V-ORI-5. -/
theorem test_ori_zero_extends :
    nextHas (step (one 0x34088000 [] []))
      (fun t => t.readReg 8 == 0x00008000 && t.pc == 1) = true := by decide
theorem test_ori_keeps_upper :
    nextHas (step (one 0x350900F0 [(8, 0xFFFF0F0F)] []))
      (fun t => t.readReg 9 == 0xFFFF0FFF) = true := by decide
/-- V-LW-8 (the last valid address) and V-LW-11 (the address wraps to 0). -/
theorem test_lw_last_address :
    nextHas (step (one 0x8D090000 [(8, 1023)] [(1023, 0xABCDEF01)]))
      (fun t => t.readReg 9 == 0xABCDEF01 && t.pc == 1) = true := by decide
theorem test_lw_wraps :
    nextHas (step (one 0x8D090001 [(8, 0xFFFFFFFF)] [(0, 0x42)]))
      (fun t => t.readReg 9 == 0x42) = true := by decide
/-- V-SW-3 and V-SW-4 (a zero is stored over 0x55). -/
theorem test_sw_negative_offset :
    nextHas (step (one 0xAD09FFFE [(8, 6), (9, 0xDEADBEEF)] []))
      (fun t => t.dmem == [(4, 0xDEADBEEF)] && t.pc == 1) = true := by decide
theorem test_sw_zero :
    nextHas (step (one 0xAC000001 [] [(1, 0x55)])) (fun t => t.dmem == []) = true := by decide
/-- V-BEQ-4 (taken, backwards) and V-BEQ-2 (not taken), at pc 10. -/
theorem test_beq_taken :
    nextHas (exec (.beq 8 9 0xFFFD) (sample 10 [] [(8, 7), (9, 7)] [])) (fun t => t.pc == 8) = true := by
  decide
theorem test_beq_not_taken :
    nextHas (exec (.beq 8 9 3) (sample 10 [] [(8, 7), (9, 8)] [])) (fun t => t.pc == 11) = true := by
  decide

/-! ### Faults -/

/-- V-LW-10: rt = 0 and out of range. -/
theorem test_lw_zero_faults :
    faultsWith (step (one 0x8D000000 [(8, 5000)] [])) (.dataAddressOutOfRange 0 0x1388) = true := by
  decide
/-- V-SW-6: the first address that does not exist. -/
theorem test_sw_faults :
    faultsWith (step (one 0xAD090000 [(8, 1024), (9, 1)] [])) (.dataAddressOutOfRange 0 0x400) = true := by
  decide
/-- The all-zero word is no instruction (R58). -/
theorem test_zero_word_faults :
    faultsWith (step (one 0 [] [])) (.unsupportedInstruction 0 0) = true := by decide
/-- R175: pc at the image's end; and an empty image, at reset. -/
theorem test_fetch_faults :
    faultsWith (step (sample 1 [0x20080005] [] [])) (.fetchOutOfRange 1) = true ∧
    faultsWith (step State.reset) (.fetchOutOfRange 0) = true := by decide

/-! ### Load, table words, ports -/

/-- R144: too long, an element out of range, and a well-formed image of one unsupported word. -/
theorem test_load :
    load { defaultLaunch with config := ⟨16, 1⟩ } [0, 0] = .rejected .malformedImage ∧
    load defaultLaunch [2 ^ 32] = .rejected .malformedImage ∧
    load defaultLaunch [-1] = .rejected .malformedImage ∧
    load defaultLaunch [0] = .started { State.reset with image := [0] } := by decide
/-- Every row's match word decodes to its instruction and runs as the first after reset. -/
theorem test_table_words :
    ∀ m ∈ [Mnemonic.ADD, .AND, .SLT, .ADDI, .LUI, .ORI, .LW, .SW, .BEQ],
      (decodeTableWord 32 (opcodeRow m).pattern.toNat).map Instr.mnemonic = some m ∧
      nextHas (step (State.reset.withFetchWord 32 (opcodeRow m).pattern.toNat)) (fun _ => true) = true := by
  decide
/-- R145: the code on the fault port; R70: none while rst is 1. -/
theorem test_fault_port :
    faultPort ⟨false, 0, true, 0, 0⟩ State.reset = 1 ∧ faultPort ⟨false, 0, false, 0, 0⟩ State.reset = 3 ∧
    faultPort ⟨true, 0, false, 0, 0⟩ State.reset = 0 := by decide

/-! ### Witnesses: the hypotheses of the statements can be met, clause by clause -/

theorem witness_DecoderFollowsOpcodeMap :
    (opcodeRow .SLT).matches 0x0109502A ∧ ∀ m, ¬ (opcodeRow m).matches 0x00000000 := by
  refine ⟨by decide, fun m => ?_⟩
  cases m <;> decide
theorem witness_OpcodeAndFunctAloneSelect :
    (fieldsOf 0x01095020).opcode = (fieldsOf 0x010957E0).opcode ∧
    (fieldsOf 0x01095020).opcode = 0 ∧
    (fieldsOf 0x01095020).funct = (fieldsOf 0x010957E0).funct ∧
    (fieldsOf 0x20080005).opcode = (fieldsOf 0x2108FFFF).opcode ∧
    (fieldsOf 0x20080005).opcode ≠ 0 := by decide
theorem witness_PairsOutsideTheTableAreUnsupported :
    (one 0x00000000 [] []).fetch = some 0x00000000 ∧ (one 0x00000020 [] []).fetch = some 0x00000020 := by
  decide
theorem witness_EncodeOfDecodeClearsIgnoredBits : decode 0x010957E0 = .ok (.add 10 8 9) := by decide
/-- In-range operands at the ends of their ranges, and the line out of range by one, for each form. -/
theorem witness_AssembledImmediatesKeepTheirValue :
    (AsmReg.num 31).Legal ∧ (AsmReg.name .ra).Legal ∧ ¬ (AsmReg.num 32).Legal ∧
    assemble 0 (.add (.num 31) (.num 0) (.name .ra)) = some 0x001FF820 ∧
    assemble 0 (.add (.num 31) (.num 0) (.num 32)) = none ∧
    assemble 0 (.addi (.num 9) (.num 8) (-32768)) = some 0x21098000 ∧
    assemble 0 (.addi (.num 9) (.num 8) (-32769)) = none ∧
    assemble 0 (.ori (.num 9) (.num 8) 65535) = some 0x3509FFFF ∧
    assemble 0 (.ori (.num 9) (.num 8) 65536) = none ∧
    assemble 0 (.lui (.num 8) 0) = some 0x3C080000 ∧ assemble 0 (.lui (.num 8) (-1)) = none ∧
    assemble 0 (.lw (.num 9) 32767 (.num 8)) = some 0x8D097FFF ∧
    assemble 0 (.lw (.num 9) 32768 (.num 8)) = none ∧
    assemble 0 (.sw (.num 9) (-2) (.num 8)) = some 0xAD09FFFE ∧
    assemble 0 (.sw (.num 9) 32768 (.num 8)) = none := by
  refine ⟨?_, trivial, ?_, ?_⟩
  · show 31 ≤ 31; decide
  · show ¬ 32 ≤ 31; decide
  · decide
theorem witness_AssembledImmediatesKeepTheirValue_beq :
    assemble 0 (.beq (.num 8) (.num 9) (.offset (-3))) = some 0x1109FFFD ∧
    assemble 0 (.beq (.num 8) (.num 9) (.offset 32768)) = none ∧
    assemble 5 (.beq (.num 8) (.num 9) (.label 32773)) = some 0x11097FFF ∧
    assemble 5 (.beq (.num 8) (.num 9) (.label 32774)) = none ∧
    assemble 32767 (.beq (.num 8) (.num 9) (.label 0)) = some 0x11098000 ∧
    assemble 32768 (.beq (.num 8) (.num 9) (.label 0)) = none ∧
    assemble 0 (.beq (.num 8) (.num 9) (.label 0xFFFFFFFF)) = none := by decide
theorem witness_BranchToLabelReachesLabel :
    assemble 5 (.beq (.name .zero) (.name .zero) (.label 2)) = some 0x1000FFFC := by decide
/-- The ends of the bit ranges, and a register other than 0. -/
theorem witness_ImmediateForms_AluResults_ResetLeavesLaunchValues :
    (15 < 16 ∧ 16 ≤ 16 ∧ 16 < 32 ∧ 31 < 32) ∧ (31 : RegIdx) ≠ 0 := by decide
theorem witness_BundlesAreExclusive : controlUnit 0x23 0x24 = some (bundleOf .LW) := by decide

/-- A bundle of no row, with every enable true (R84). -/
def allEnabled : ControlSignals := ⟨true, true, true, .REG, true, true, .ADD⟩

theorem witness_PcUpdateOfAnyBundle :
    ∃ t, runBundle allEnabled (fieldsOf 0x01095020) State.reset = .next t := ⟨_, rfl⟩
/-- A data access at the last address that exists, at the first that does not, and a register write to
register 0 (dest = rd = 0) with no data access. -/
theorem witness_EnablesCommitIndependently :
    (one 0 [(8, 1023)] []).dataAddressExists
      (alu .ADD ((one 0 [(8, 1023)] []).readReg 8) (operand2 .REG ((one 0 [(8, 1023)] []).readReg 9) 0)) ∧
    (∃ t, runBundle allEnabled (fieldsOf 0x01095020) (one 0 [(8, 1023)] []) = .next t) ∧
    ¬ (one 0 [(8, 1024)] []).dataAddressExists
      (alu .ADD ((one 0 [(8, 1024)] []).readReg 8) (operand2 .REG ((one 0 [(8, 1024)] []).readReg 9) 0)) ∧
    (∃ g, runBundle allEnabled (fieldsOf 0x01095020) (one 0 [(8, 1024)] []) = .fault g) ∧
    ¬ ((bundleOf .ADD).memToReg = true ∨ (bundleOf .ADD).memWrite = true) ∧
    ∃ t, runBundle (bundleOf .ADD) (fieldsOf 0x01090020) (one 0 [(8, 1024)] []) = .next t :=
  ⟨by decide, ⟨_, rfl⟩, by decide, ⟨_, rfl⟩, by decide, ⟨_, rfl⟩⟩
theorem witness_row_words :
    0x010957E0#32 &&& 0xFC00003F#32 = 0x00000020#32 ∧ 0x01084824#32 &&& 0xFC00003F#32 = 0x00000024#32 ∧
    0x0109502A#32 &&& 0xFC00003F#32 = 0x0000002A#32 ∧ 0x2108FFFF#32 &&& 0xFC000000#32 = 0x20000000#32 ∧
    0x3D281234#32 &&& 0xFC000000#32 = 0x3C000000#32 ∧ 0x35085678#32 &&& 0xFC000000#32 = 0x34000000#32 ∧
    0x8D09FFFF#32 &&& 0xFC000000#32 = 0x8C000000#32 ∧ 0xAD09FFFE#32 &&& 0xFC000000#32 = 0xAC000000#32 ∧
    0x1109FFFD#32 &&& 0xFC000000#32 = 0x10000000#32 := by decide
/-- The last address that exists and the first that does not. -/
theorem witness_LwLoadsOrFaults_SwStoresOrFaults :
    (effectiveAddress (one 0 [(8, 1023)] []) 8 0).toNat < (one 0 [(8, 1023)] []).config.dmemWords ∧
    (one 0 [(8, 1023)] []).config.dmemWords ≤ (effectiveAddress (one 0 [(8, 1023)] []) 8 1).toNat := by
  decide
/-- A taken branch from pc 0 back by 2 lands at 0xFFFFFFFF, beyond the image (V-BEQ-7). -/
theorem witness_BeqBranchesWhenEqual :
    ∃ t, exec (.beq 0 0 0xFFFE) (one 0x1000FFFE [] []) = .next t ∧ t.pc = 0xFFFFFFFF ∧
      t.image.length ≤ t.pc.toNat := ⟨_, rfl, by decide, by decide⟩
theorem witness_OnlyTakenBeqLeavesTheSequence :
    (∃ t, exec (.add 10 8 9) State.reset = .next t) ∧ ∃ t, exec (.beq 0 0 3) State.reset = .next t :=
  ⟨⟨_, rfl⟩, ⟨_, rfl⟩⟩
theorem witness_NoArithmeticFaults :
    Instr.dataAddress (.slt 10 8 9) State.reset = none ∧
    ∃ f, exec (.lw 9 0 0xFFFF) State.reset = .fault f := ⟨rfl, ⟨_, rfl⟩⟩
theorem witness_RegisterZeroIsHardwired :
    Instr.writtenRegister (.lw 0 8 0) = some 0 ∧
    (∀ a, Instr.dataAddress (.lw 0 8 0) State.reset = some a → a.toNat < State.reset.config.dmemWords) ∧
    Instr.writtenRegister (.add 0 8 9) = some 0 ∧ (31 : RegIdx) ≠ 0 ∧ (1 : RegIdx) ≠ 31 := by
  refine ⟨rfl, fun a h => ?_, rfl, by decide, by decide⟩
  cases h
  decide
/-- Two states that differ in a register SW does not use. -/
theorem witness_RegisterUseTable :
    (∀ r ∈ Instr.usedRegisters (.sw 9 8 0),
      (one 0 [(8, 6), (9, 1)] []).readReg r = (one 0 [(8, 6), (9, 1), (10, 5)] []).readReg r) ∧
    (one 0 [(8, 6), (9, 1)] []).pc = (one 0 [(8, 6), (9, 1), (10, 5)] []).pc ∧
    (one 0 [(8, 6), (9, 1)] []).dmem = (one 0 [(8, 6), (9, 1), (10, 5)] []).dmem ∧
    (one 0 [(8, 6), (9, 1)] []).config = (one 0 [(8, 6), (9, 1), (10, 5)] []).config ∧
    (∃ t, exec (.sw 9 8 0) (one 0 [(8, 6), (9, 1)] []) = .next t) ∧
    Instr.writtenRegister (.sw 9 8 0) ≠ some 10 ∧
    (∃ f, exec (.lw 9 8 0) (one 0 [(8, 1024)] []) = .fault f) ∧
    Instr.writtenRegister (.lw 9 8 0) = some 9 :=
  ⟨by decide, by decide, by decide, by decide, ⟨_, rfl⟩, by decide, ⟨_, rfl⟩, rfl⟩
theorem witness_AddressSpacesAreSeparate :
    (∃ t, step (one 0x00000020 [] []) = .next t) ∧
    (∃ f, exec (.sw 9 0 0xFFFF) State.reset = .fault f) ∧
    (∃ t, exec (.add 10 8 9) State.reset = .next t) ∧ Instr.dataAddress (.add 10 8 9) State.reset = none ∧
    (∃ t, exec (.lw 9 0 3) (one 0 [] [(3, 7)]) = .next t) ∧
    Memory.read [(3, 7), (4, 8)] (effectiveAddress (one 0 [] [(3, 7)]) 0 3).toNat =
      (one 0 [] [(3, 7)]).dmem.read (effectiveAddress (one 0 [] [(3, 7)]) 0 3).toNat ∧
    (∃ t, exec (.sw 9 0 3) State.reset = .next t) :=
  ⟨⟨_, rfl⟩, ⟨_, rfl⟩, ⟨_, rfl⟩, rfl, ⟨_, rfl⟩, by decide, ⟨_, rfl⟩⟩
theorem witness_OnlySwChangesDataMemory :
    ∃ t, step (one 0xAC0A0000 [(10, 10)] []) = .next t ∧
      t.dmem.read 0 ≠ (one 0xAC0A0000 [(10, 10)] []).dmem.read 0 := ⟨_, rfl, by decide⟩
/-- The same address by another base and offset. -/
theorem witness_StoreThenLoadReturnsStoredWord :
    ∃ t, exec (.sw 9 8 0) (one 0 [(8, 6), (9, 5)] []) = .next t ∧
      effectiveAddress t 0 6 = effectiveAddress (one 0 [(8, 6), (9, 5)] []) 8 0 := ⟨_, rfl, by decide⟩
theorem witness_CanonicalMemoryIsUnique :
    Memory.wf [(0, 1), (5, 2)] ∧ ∀ a, Memory.read [(0, 1), (5, 2)] a = Memory.read [(0, 1), (5, 2)] a :=
  ⟨by decide, fun _ => rfl⟩
theorem witness_StepRunsDecodedInstruction :
    (one 0x01095020 [] []).fetch = some 0x01095020 ∧ decode 0x01095020 = .ok (.add 10 8 9) := by decide
theorem witness_StepOutcomes :
    (sample 1 [0x20080005] [] []).image.length ≤ (sample 1 [0x20080005] [] []).pc.toNat ∧
    (one 0 [] []).image[(one 0 [] []).pc.toNat]? = some 0 ∧ (∀ m, ¬ (opcodeRow m).matches 0) ∧
    (one 0x8D090001 [(8, 1023)] []).image[(one 0x8D090001 [(8, 1023)] []).pc.toNat]? = some 0x8D090001 ∧
    decode 0x8D090001 = .ok (.lw 9 8 1) ∧
    Instr.dataAddress (.lw 9 8 1) (one 0x8D090001 [(8, 1023)] []) = some 1024 ∧
    1024 ≤ (1024 : Word).toNat ∧
    (∀ a, Instr.dataAddress (.lw 9 8 1) (one 0x8D090001 [(8, 1022)] []) = some a → a.toNat < 1024) := by
  refine ⟨by decide, by decide, fun m => ?_, by decide, by decide, by decide, by decide, fun a h => ?_⟩
  · cases m <;> decide
  · cases h; decide
theorem witness_FaultCommitsNothingAndRecurs :
    ∃ f, step (one 0 [(8, 3)] []) = .fault f := ⟨_, rfl⟩
/-- Both values of rst, and a debug read of the last address that exists and of the first that does not. -/
theorem witness_PortsRealiseTheStep :
    (⟨false, 0, true, 0, 0⟩ : PortsIn).rst = false ∧ (⟨true, 0, true, 0, 0⟩ : PortsIn).rst = true ∧
    (imemAnswer State.reset ⟨false, 5, true, 0, 0⟩).imemValid = false ∧
    (outputs ⟨false, 0, true, 0, 1023⟩ (one 0 [] [(1023, 7), (1024, 8)])).dbgMemData = 7 ∧
    (outputs ⟨false, 0, true, 0, 1024⟩ (one 0 [] [(1023, 7), (1024, 8)])).dbgMemData = 0 := by
  decide
theorem witness_InspectionShowsLatchedState : 1023 < State.reset.config.dmemWords := by decide
theorem witness_SelfBranchSpinsForever :
    (sample 1 [0, 0x1000FFFF] [] []).fetch = some 0x1000FFFF#32 := by decide
theorem witness_ResetEntersAtImageZero :
    ({ defaultLaunch with image := [0x20080005, 0x20090005] } : Launch).image = 0x20080005 :: [0x20090005] :=
  rfl
/-- The capacity met and exceeded by one, an element at 2^32-1 and at 2^32, and register 0 supplied. -/
theorem witness_LoadRejectsExactlyMalformedImages :
    [(2 : Int) ^ 32 - 1].length ≤ (⟨16, 1⟩ : Config).imemWords ∧ (∀ w ∈ [(2 : Int) ^ 32 - 1], 0 ≤ w ∧ w < 2 ^ 32) ∧
    (⟨16, 1⟩ : Config).imemWords < [(0 : Int), 0].length ∧ (2 : Int) ^ 32 ∈ [(2 : Int) ^ 32] ∧
    (∃ s, load ⟨⟨16, 1⟩, [], Vector.replicate 32 5, [(3, 7)]⟩ [2 ^ 32 - 1] = .started s ∧
      s.readReg 0 = 0 ∧ s.readReg 31 = 5 ∧ s.dmem.read 3 = 7 ∧ s.image = [0xFFFFFFFF]) ∧
    (31 : RegIdx) ≠ 0 :=
  ⟨by decide, by decide, by decide, by decide, ⟨_, rfl, by decide, by decide, by decide, by decide⟩, by decide⟩
theorem witness_InvariantHoldsAfterLoad :
    defaultLaunch.config.valid ∧ defaultLaunch.initDmem.wf ∧
    defaultLaunch.initDmem.below defaultLaunch.config.dmemWords ∧
    load defaultLaunch [0x20080005] = .started { State.reset with image := [0x20080005] } := by decide
theorem witness_InvariantKeptByEveryStep :
    MachineInv (one 0xAC0A0000 [(10, 10)] []) ∧ ∃ t, step (one 0xAC0A0000 [(10, 10)] []) = .next t :=
  ⟨by decide, ⟨_, rfl⟩⟩
theorem witness_RunsKeepInvariantAndProgram :
    MachineInv (one 0x20080005 [] []) ∧ ∃ t, RunsTo 1 (one 0x20080005 [] []) t :=
  ⟨by decide, ⟨_, _, rfl, rfl⟩⟩

end Sys2Proof.Tests
end

section
/-! PROOFS. When exec completes, and what a register-writing instruction then leaves. -/

namespace Sys2Proof.Machine

/-- Every instruction has a meaning: the spec leaves none of the opcode map's rows open. -/
theorem exec_ne_refused (i : Instr) (s : State) (r : Refusal) : exec i s ≠ .refused r := by
  cases i
  case lw rt rs imm => simp only [exec, execLw_eq]; split <;> nofun
  case sw rt rs imm => simp only [exec, execSw_eq]; split <;> nofun
  all_goals nofun

/-- A data address that does not exist is the only thing that stops an instruction. -/
theorem exec_completes {i : Instr} {s : State}
    (ha : ∀ a, i.dataAddress s = some a → s.dataAddressExists a) : ∃ t, exec i s = .next t := by
  cases h : exec i s with
  | next t => exact ⟨t, rfl⟩
  | fault f =>
    obtain ⟨a, hi, hna, -⟩ := exec_fault h
    exact absurd (ha a hi) hna
  | refused r => exact absurd h (exec_ne_refused i s r)

/-- A completed instruction of the column "writes" commits some value to its register, and no more. -/
theorem exec_next_commitReg {i : Instr} {s t : State} {r : RegIdx}
    (h : exec i s = .next t) (hw : i.writtenRegister = some r) : ∃ v, t = s.commitReg r v := by
  obtain ⟨q, v, hq, rfl, -⟩ | ⟨_, _, _, rfl, -⟩ | ⟨_, _, _, rfl, -⟩ := exec_next h
  · cases hq.symm.trans hw
    exact ⟨v, rfl⟩
  · cases hw
  · cases hw

/-- A commit to register 0 is the pc update alone (10_state.md R15). -/
@[simp] theorem State.commitReg_zero (s : State) (v : Word) : s.commitReg 0 v = s.advance := rfl

/-- Going to the next instruction changes pc alone. -/
theorem transferResult_advance (s : State) : TransferResult s s.advance (s.pc + 1) :=
  ⟨rfl, State.readReg_advance s, fun _ => rfl, rfl, rfl⟩

/-- Reset fetches the image's first word, if there is one. -/
theorem State.fetch_init (l : Launch) : (State.init l).fetch = l.image[0]? := rfl

end Sys2Proof.Machine
end

section
/-! PROOFS. The state's obligations (10_state.md): register 0, and the entry point of reset. -/

namespace Sys2Proof.Machine

/-- Settles O29: a completed write to register 0 is a bare advance of pc; the other registers by the
rule of a register write. -/
theorem registerZeroIsHardwired : Obligations.RegisterZeroIsHardwired := by
  refine ⟨fun _ => rfl, State.writeReg_zero, fun i s hw ha => ?completes, fun s r v hr => ?ordinary⟩
  case completes =>
    obtain ⟨t, ht⟩ := exec_completes ha
    obtain ⟨v, rfl⟩ := exec_next_commitReg ht hw
    exact ⟨_, ht, transferResult_advance s⟩
  case ordinary =>
    refine ⟨?_, fun q hq => ?_⟩
    · rw [State.readReg_writeReg, if_pos ⟨rfl, hr⟩]
    · rw [State.readReg_writeReg, if_neg fun h => hq h.1]

/-- Settles O41: pc 0 after reset indexes the head of the launch's image. -/
theorem resetEntersAtImageZero : Obligations.ResetEntersAtImageZero := by
  intro l w rest himage
  refine ⟨State.init_pc l, ?_⟩
  rw [State.fetch_init, himage, List.getElem?_cons_zero]

end Sys2Proof.Machine
end

section
/-! PROOFS. The two address spaces (20_memory.md): which of them an instruction sees and changes. The
`replaceSpaces` lemmas run an instruction again with any other data memory and any other image. -/

namespace Sys2Proof.Machine

/-- The machine has no store into the image (20_memory.md R46). -/
theorem exec_keeps_image {i : Instr} {s t : State} (h : exec i s = .next t) : t.image = s.image := by
  obtain ⟨r, v, -, rfl, -⟩ | ⟨rt, rs, imm, -, -, rfl⟩ | ⟨rs, rt, offset, -, rfl⟩ := exec_next h
  · exact State.commitReg_image s r v
  · rfl
  · split <;> rfl

/-- SW alone changes data memory (10_state.md R19). -/
theorem exec_keeps_dmem {i : Instr} {s t : State} (h : exec i s = .next t)
    (hi : ∀ rt rs imm, i ≠ .sw rt rs imm) : t.dmem = s.dmem := by
  obtain ⟨r, v, -, rfl, -⟩ | ⟨rt, rs, imm, rfl, -⟩ | ⟨rs, rt, offset, -, rfl⟩ := exec_next h
  · exact State.commitReg_dmem s r v
  · exact absurd rfl (hi rt rs imm)
  · split <;> rfl

/-- The converse of `exec_fault`: a data address that does not exist stops its instruction. -/
theorem exec_fault_of_not_dataAddressExists {i : Instr} {s : State} {a : Word}
    (hi : i.dataAddress s = some a) (ha : ¬ s.dataAddressExists a) :
    exec i s = .fault (.dataAddressOutOfRange s.pc a) := by
  cases i
  case lw rt rs imm => cases hi; exact (execLw_eq rt rs imm s).trans (if_neg ha)
  case sw rt rs imm => cases hi; exact (execSw_eq rt rs imm s).trans (if_neg ha)
  all_goals cases hi

/-- LW completes exactly where its address exists, with the word there. -/
theorem exec_lw_eq_next {rt rs : RegIdx} {imm : Imm} {s t : State} :
    exec (.lw rt rs imm) s = .next t ↔ s.dataAddressExists (effectiveAddress s rs imm) ∧
      t = s.commitReg rt (s.dmem.read (effectiveAddress s rs imm).toNat) := by
  simp only [exec, execLw_eq]
  split <;> simp_all [eq_comm]

/-- SW completes exactly where its address exists, with the word stored. -/
theorem exec_sw_eq_next {rt rs : RegIdx} {imm : Imm} {s t : State} :
    exec (.sw rt rs imm) s = .next t ↔ s.dataAddressExists (effectiveAddress s rs imm) ∧
      t = State.advance { s with
        dmem := s.dmem.write (effectiveAddress s rs imm).toNat (s.readReg rt) } := by
  simp only [exec, execSw_eq]
  split <;> simp_all [eq_comm]

section ReplaceSpaces
variable {s t : State} (m : Memory) (image : List Word)

/-- A register result touches neither address space. -/
theorem State.commitReg_replaceSpaces (r : RegIdx) (v : Word) :
    State.commitReg { s with dmem := m, image := image } r v =
      { s.commitReg r v with dmem := m, image := image } := by
  unfold State.commitReg State.writeReg
  split <;> rfl

/-- An instruction without a data access sees neither address space. -/
theorem exec_noDataAccess_replaceSpaces {i : Instr} (hi : i.dataAddress s = none)
    (h : exec i s = .next t) :
    exec i { s with dmem := m, image := image } = .next { t with dmem := m, image := image } := by
  cases i
  case lw | sw => cases hi
  case beq rs rt offset =>
    cases h
    refine congrArg Host.Outcome.next ?_
    by_cases heq : s.readReg rs = s.readReg rt
    · rw [if_pos heq]; exact if_pos heq
    · rw [if_neg heq]; exact if_neg heq
  all_goals
    cases h
    exact congrArg Host.Outcome.next (State.commitReg_replaceSpaces m image _ _)

/-- LW sees of both address spaces the one data word at its address. -/
theorem exec_lw_replaceSpaces {rt rs : RegIdx} {imm : Imm} (h : exec (.lw rt rs imm) s = .next t)
    (hm : m.read (effectiveAddress s rs imm).toNat = s.dmem.read (effectiveAddress s rs imm).toNat) :
    exec (.lw rt rs imm) { s with dmem := m, image := image } =
      .next { t with dmem := m, image := image } := by
  obtain ⟨ha, rfl⟩ := exec_lw_eq_next.mp h
  refine exec_lw_eq_next.mpr ⟨ha, ?_⟩
  rw [← hm]
  exact (State.commitReg_replaceSpaces m image _ _).symm

/-- SW sees nothing of either address space: it puts the same word into whatever data memory. -/
theorem exec_sw_replaceSpaces {rt rs : RegIdx} {imm : Imm} (h : exec (.sw rt rs imm) s = .next t) :
    exec (.sw rt rs imm) { s with dmem := m, image := image } =
      .next { t with
        dmem := m.write (effectiveAddress s rs imm).toNat (s.readReg rt), image := image } := by
  obtain ⟨ha, rfl⟩ := exec_sw_eq_next.mp h
  exact exec_sw_eq_next.mpr ⟨ha, rfl⟩

/-- No completed instruction sees the image: the case of the same data memory. -/
theorem exec_replaceImage {i : Instr} (h : exec i s = .next t) :
    exec i { s with image := image } = .next { t with image := image } := by
  cases i
  case lw rt rs imm =>
    have hd : t.dmem = s.dmem := exec_keeps_dmem h nofun
    simpa only [← hd] using exec_lw_replaceSpaces s.dmem image h rfl
  case sw rt rs imm =>
    have hd := exec_sw_replaceSpaces s.dmem image h
    obtain ⟨-, rfl⟩ := exec_sw_eq_next.mp h
    exact hd
  all_goals
    have hd : t.dmem = s.dmem := exec_keeps_dmem h nofun
    simpa only [← hd] using exec_noDataAccess_replaceSpaces s.dmem image rfl h

/-- No fault depends on the image. -/
theorem exec_fault_replaceImage {i : Instr} {f : Fault} (h : exec i s = .fault f) :
    exec i { s with image := image } = .fault f := by
  obtain ⟨a, hi, hna, rfl⟩ := exec_fault h
  have hi' : i.dataAddress { s with image := image } = some a := by cases i <;> exact hi
  exact exec_fault_of_not_dataAddressExists hi' hna

end ReplaceSpaces

/-- Settles O31: the clauses on what an instruction sees are the `replaceSpaces` lemmas with one of the
two spaces left as it was. -/
theorem addressSpacesAreSeparate : Obligations.AddressSpacesAreSeparate := by
  refine ⟨fun s t h => ?step, fun _ _ => rfl,
    fun i s image =>
      ⟨fun t h => exec_replaceImage image h, fun f h => exec_fault_replaceImage image h⟩,
    fun i s t m hi h => ⟨exec_keeps_dmem h ?notSw, ?noAccess⟩,
    fun rt rs imm s t m h => ⟨exec_keeps_dmem h nofun, fun hm => ?lw⟩,
    fun rt rs imm s t m h => ?sw⟩
  case step =>
    obtain ⟨w, i, -, -, hi⟩ := step_next h
    exact exec_keeps_image hi
  case notSw => rintro rt rs imm rfl; cases hi
  case noAccess =>
    simpa only [exec_keeps_image h] using exec_noDataAccess_replaceSpaces m s.image hi h
  case lw => simpa only [exec_keeps_image h] using exec_lw_replaceSpaces m s.image h hm
  case sw => simpa only [exec_keeps_image h] using exec_sw_replaceSpaces m s.image h

end Sys2Proof.Machine
end

section
/-! PROOFS. What the fields and the three immediate forms are by value (30_encoding.md R51, R55), and what
the decoder and the control unit select on (R56). -/

namespace Sys2Proof

/-- The slice `(v >> lo) mod 2^(hi-lo+1)` of 00_scope.md R6, in division form. -/
theorem toNat_extractLsb_eq_div_mod {n : Nat} (w : BitVec n) (hi lo : Nat) :
    (w.extractLsb hi lo).toNat = w.toNat / 2 ^ lo % 2 ^ (hi - lo + 1) := by
  rw [BitVec.extractLsb_toNat, Nat.shiftRight_eq_div_pow]

section FieldValues
variable (w : Word)
theorem fieldsOf_opcode_toNat : (fieldsOf w).opcode.toNat = w.toNat / 2 ^ 26 % 2 ^ 6 :=
  toNat_extractLsb_eq_div_mod w 31 26
theorem fieldsOf_rs_toNat : (fieldsOf w).rs.toNat = w.toNat / 2 ^ 21 % 2 ^ 5 :=
  toNat_extractLsb_eq_div_mod w 25 21
theorem fieldsOf_rt_toNat : (fieldsOf w).rt.toNat = w.toNat / 2 ^ 16 % 2 ^ 5 :=
  toNat_extractLsb_eq_div_mod w 20 16
theorem fieldsOf_rd_toNat : (fieldsOf w).rd.toNat = w.toNat / 2 ^ 11 % 2 ^ 5 :=
  toNat_extractLsb_eq_div_mod w 15 11
theorem fieldsOf_shamt_toNat : (fieldsOf w).shamt.toNat = w.toNat / 2 ^ 6 % 2 ^ 5 :=
  toNat_extractLsb_eq_div_mod w 10 6
theorem fieldsOf_funct_toNat : (fieldsOf w).funct.toNat = w.toNat % 2 ^ 6 :=
  (toNat_extractLsb_eq_div_mod w 5 0).trans (by rw [Nat.pow_zero, Nat.div_one])
theorem fieldsOf_immediate_toNat : (fieldsOf w).immediate.toNat = w.toNat % 2 ^ 16 :=
  (toNat_extractLsb_eq_div_mod w 15 0).trans (by rw [Nat.pow_zero, Nat.div_one])
end FieldValues

/-- opcode, rs, rt and immediate leave no bit of the word out (30_encoding.md R53). -/
theorem toNat_eq_iType_fields (w : Word) :
    w.toNat = (fieldsOf w).opcode.toNat * 2 ^ 26 + (fieldsOf w).rs.toNat * 2 ^ 21 +
      (fieldsOf w).rt.toNat * 2 ^ 16 + (fieldsOf w).immediate.toNat := by
  rw [fieldsOf_opcode_toNat, fieldsOf_rs_toNat, fieldsOf_rt_toNat, fieldsOf_immediate_toNat]
  have hw : w.toNat < 2 ^ 32 := w.isLt
  omega

/-- `immediate = rd ++ shamt ++ funct` (30_encoding.md R51). -/
theorem immediate_toNat_eq_rType_fields (w : Word) :
    (fieldsOf w).immediate.toNat = (fieldsOf w).rd.toNat * 2 ^ 11 +
      (fieldsOf w).shamt.toNat * 2 ^ 6 + (fieldsOf w).funct.toNat := by
  rw [fieldsOf_immediate_toNat, fieldsOf_rd_toNat, fieldsOf_shamt_toNat, fieldsOf_funct_toNat]
  omega

end Sys2Proof

namespace Sys2Proof.Machine

section ImmediateValues
variable (imm : Imm)

@[simp] theorem sext32_toInt : (sext32 imm).toInt = imm.toInt :=
  BitVec.toInt_signExtend_of_le (by decide)

theorem sext32_getLsbD_low {k : Nat} (h : k < 16) : (sext32 imm).getLsbD k = imm.getLsbD k := by
  have h32 : k < 32 := by omega
  rw [sext32, BitVec.getLsbD_signExtend, decide_eq_true h32, Bool.true_and, if_pos h]

theorem sext32_getLsbD_high {k : Nat} (h : 16 ≤ k) (h32 : k < 32) :
    (sext32 imm).getLsbD k = imm.getLsbD 15 := by
  rw [sext32, BitVec.getLsbD_signExtend, decide_eq_true h32, Bool.true_and, if_neg (Nat.not_lt.mpr h),
    BitVec.msb_eq_getLsbD_last]

@[simp] theorem zext32_toNat : (zext32 imm).toNat = imm.toNat :=
  BitVec.toNat_setWidth_of_le (by decide)

/-- No bit of the immediate is shifted out of the word. -/
@[simp] theorem upperImm_toNat : (upperImm imm).toNat = imm.toNat * 2 ^ 16 := by
  have himm : imm.toNat < 2 ^ 16 := imm.isLt
  rw [upperImm, BitVec.toNat_shiftLeft, zext32_toNat, Nat.shiftLeft_eq, Nat.mod_eq_of_lt]
  omega

end ImmediateValues

/-- The decoder and the control unit's table name the same row for the same two selectors
(30_encoding.md R57, 40_datapath_cycle.md R73). -/
theorem decode_mnemonic_eq_rowOf (w : Word) :
    (decode w).toOption.map Instr.mnemonic = rowOf (fieldsOf w).opcode (fieldsOf w).funct := by
  unfold decode decodeFields rowOf
  split_ifs <;> rfl

/-- funct takes part in the selection only where opcode is 0 (30_encoding.md R56). -/
theorem rowOf_congr_funct {opcode funct funct' : BitVec 6} (h : opcode = 0 → funct = funct') :
    rowOf opcode funct = rowOf opcode funct' := by
  by_cases h0 : opcode = 0
  · rw [h h0]
  · exact (if_neg h0).trans (if_neg h0).symm

end Sys2Proof.Machine
end

section
/-! PROOFS. The encoding's obligations on fields, selection and immediates (30_encoding.md). -/

namespace Sys2Proof.Machine

/-- Settles O4: the decoder selects as the control unit's `rowOf` does, and `rowOf` sees funct only beside
opcode 0. -/
theorem opcodeAndFunctAloneSelect : Obligations.OpcodeAndFunctAloneSelect := by
  refine ⟨fun w v hopcode hfunct => ?decoder, fun opcode funct funct' h0 => ?control⟩
  case decoder =>
    rw [decode_mnemonic_eq_rowOf, decode_mnemonic_eq_rowOf, ← hopcode]
    exact rowOf_congr_funct hfunct
  case control =>
    exact congrArg (Option.map bundleOf) (rowOf_congr_funct fun h => absurd h h0)

/-- Settles O2: the value of each field, and the two tilings. -/
theorem fieldsAtFixedPositions : Obligations.FieldsAtFixedPositions := fun w =>
  ⟨fieldsOf_opcode_toNat w, fieldsOf_rs_toNat w, fieldsOf_rt_toNat w, fieldsOf_rd_toNat w,
    fieldsOf_shamt_toNat w, fieldsOf_funct_toNat w, fieldsOf_immediate_toNat w,
    toNat_eq_iType_fields w, immediate_toNat_eq_rType_fields w⟩

/-- Settles O10: the values of the three forms; what selects and uses them is read off `operand2`,
`branchTarget` and the nine rows of the control table. -/
theorem immediateForms : Obligations.ImmediateForms := by
  refine ⟨fun imm => ⟨sext32_toInt imm, fun k => sext32_getLsbD_low imm,
      fun k => sext32_getLsbD_high imm, zext32_toNat imm, upperImm_toNat imm⟩,
    fun _ _ => ⟨rfl, rfl, rfl⟩, fun m => ?usedBy, fun _ _ => rfl⟩
  case usedBy => cases m <;> decide

end Sys2Proof.Machine
end

section
/-! PROOFS. The control table's complement, what a step answers to the word it fetched, and what a bundle
that raises nothing commits (40_datapath_cycle.md R73, R74, R83 to R86). -/

namespace Sys2Proof.Machine

/-- The pairs of no row of the table: opcode 0 with another funct, or another opcode with any funct
(40_datapath_cycle.md R73, R74). -/
theorem rowOf_eq_none_iff {opcode funct : BitVec 6} :
    rowOf opcode funct = none ↔
      ¬ (opcode = 0x00#6 ∧ funct ∈ [0x20#6, 0x24#6, 0x2A#6]) ∧
        opcode ∉ [0x08#6, 0x0F#6, 0x0D#6, 0x23#6, 0x2B#6, 0x04#6] := by
  unfold rowOf
  by_cases h0 : opcode = 0x00#6
  case pos =>
    rw [if_pos h0]
    subst h0
    split_ifs <;> simp_all
  case neg =>
    rw [if_neg h0]
    split_ifs <;> simp_all

/-- Every row has a bundle, so the control unit has none only outside the table. -/
theorem controlUnit_eq_none_iff {opcode funct : BitVec 6} :
    controlUnit opcode funct = none ↔ rowOf opcode funct = none :=
  Option.map_eq_none_iff

/-- The control unit has no bundle for exactly the words that are no instruction. -/
theorem controlUnit_eq_none_iff_decode_error {w : Word} :
    controlUnit (fieldsOf w).opcode (fieldsOf w).funct = none ↔ ∃ r, decode w = .error r := by
  rw [controlUnit_eq_none_iff, ← decode_mnemonic_eq_rowOf]
  cases decode w <;> simp [Except.toOption]

section StepOfFetch
variable {s : State} {w : Word} (hfetch : s.fetch = some w)
include hfetch

theorem step_of_decode_ok {i : Instr} (hdecode : decode w = .ok i) : step s = exec i s := by
  simp only [step, hfetch, hdecode]

theorem step_of_decode_error {r : DecodeReject} (hdecode : decode w = .error r) :
    step s = .fault (.unsupportedInstruction s.pc w) := by
  simp only [step, hfetch, hdecode, raise_eq]

/-- An instruction's own fault is never UnsupportedInstruction, so only the decoder's rejection raises
it. -/
theorem step_unsupported_iff_decode_error :
    (∃ p v, step s = .fault (.unsupportedInstruction p v)) ↔ ∃ r, decode w = .error r := by
  cases hdecode : decode w with
  | error r =>
    exact iff_of_true ⟨_, _, step_of_decode_error hfetch hdecode⟩ ⟨r, rfl⟩
  | ok i =>
    refine iff_of_false ?_ nofun
    rintro ⟨p, v, hstep⟩
    rw [step_of_decode_ok hfetch hdecode] at hstep
    obtain ⟨a, -, -, hfault⟩ := exec_fault hstep
    cases hfault

end StepOfFetch

/-- A bundle that answers a next state had the data address its enables need, and committed pc,
registers and data memory together, from start-of-cycle values (40_datapath_cycle.md R84, R86). -/
theorem runBundle_next {c : ControlSignals} {f : Fields} {s t : State} {op2 aluResult : Word}
    (hop2 : op2 = operand2 c.aluSrc (s.readReg f.rt) f.immediate)
    (halu : aluResult = alu c.aluOp (s.readReg f.rs) op2) (h : runBundle c f s = .next t) :
    ∃ wbData, writeBackData c aluResult s = some wbData ∧
      (c.memWrite = true → s.dataAddressExists aluResult) ∧
      t = { pc := nextPc c (equalFlag (s.readReg f.rs) op2) f.immediate s.pc
            regs := if c.regWrite then (s.writeReg (destination c f) wbData).regs else s.regs
            dmem := if c.memWrite then s.dmem.write aluResult.toNat (s.readReg f.rt) else s.dmem
            image := s.image
            config := s.config } := by
  subst hop2 halu
  simp only [runBundle] at h
  split at h
  · cases h
  · rename_i wbData hwb
    split at h
    · cases h
    · rename_i haddress
      injection h with h
      exact ⟨wbData, hwb, fun hwrite => by_contra fun hna => haddress ⟨hwrite, hna⟩, h.symm⟩

/-- The equality flag inside `nextPc`, as the difference it stands for (40_datapath_cycle.md R78, R83). -/
theorem nextPc_equalFlag (c : ControlSignals) (a b : Word) (imm : Imm) (pc : Word) :
    nextPc c (equalFlag a b) imm pc =
      if c.branch = true ∧ b - a = 0 then pc + 1 + sext32 imm else pc + 1 := by
  simp only [nextPc, equalFlag, branchTarget, Bool.and_eq_true, beq_iff_eq]

end Sys2Proof.Machine
end

section
/-! PROOFS. The datapath's obligations on unsupported pairs and the pc update (40_datapath_cycle.md). -/

namespace Sys2Proof.Machine

/-- Settles O5: the table's complement is where `rowOf` is none; the control unit and the decoder agree
on it, and only the decoder's rejection raises UnsupportedInstruction. -/
theorem pairsOutsideTheTableAreUnsupported : Obligations.PairsOutsideTheTableAreUnsupported := by
  refine fun s w hfetch => ⟨?outside, ?raises⟩
  case outside => exact rowOf_eq_none_iff.symm.trans controlUnit_eq_none_iff.symm
  case raises =>
    exact controlUnit_eq_none_iff_decode_error.trans (step_unsupported_iff_decode_error hfetch).symm

/-- Settles O15: the pc a bundle commits is `nextPc` of this cycle's flag. -/
theorem pcUpdateOfAnyBundle : Obligations.PcUpdateOfAnyBundle := by
  intro c f s t h
  obtain ⟨wbData, -, -, rfl⟩ := runBundle_next rfl rfl h
  exact nextPc_equalFlag c _ _ f.immediate s.pc

end Sys2Proof.Machine
end

section
/-! PROOFS. What a word of an R-type row selects (30_encoding.md R57, R60), and what the instructions that
commit a register leave (41_rtype_alu.md R100 to R102). -/

namespace Sys2Proof

/-- A row fixes every field its mask covers. -/
theorem extractLsb_of_row {w mask pattern : Word} {hi lo : Nat} (h : w &&& mask = pattern)
    (hcovered : mask.extractLsb hi lo = BitVec.allOnes _) :
    w.extractLsb hi lo = pattern.extractLsb hi lo := by
  rw [← h, BitVec.extractLsb_and, hcovered, BitVec.and_allOnes]

section RTypeRow
variable {w : Word} {funct : BitVec 6} (h : w &&& 0xFC00003F#32 = funct.zeroExtend 32)
include h

theorem opcode_of_rType_row : w.extractLsb 31 26 = 0x00#6 := by
  have hzero : ∀ f : BitVec 6, (f.zeroExtend 32).extractLsb 31 26 = 0x00#6 := by decide
  exact (extractLsb_of_row h (by decide)).trans (hzero funct)

theorem funct_of_rType_row : w.extractLsb 5 0 = funct := by
  have hsame : ∀ f : BitVec 6, (f.zeroExtend 32).extractLsb 5 0 = f := by decide
  exact (extractLsb_of_row h (by decide)).trans (hsame funct)

/-- The decoder reads off the row's two selectors and the word's own fields, whatever shamt holds. -/
theorem decode_of_rType_row :
    decode w = decodeFields { fieldsOf w with opcode := 0x00#6, funct := funct } := by
  have hfields : fieldsOf w = { fieldsOf w with opcode := w.extractLsb 31 26, funct := w.extractLsb 5 0 } :=
    rfl
  rw [decode, hfields, opcode_of_rType_row h, funct_of_rType_row h]

theorem controlUnit_of_rType_row :
    Machine.controlUnit (w.extractLsb 31 26) (w.extractLsb 5 0) = Machine.controlUnit 0x00#6 funct := by
  rw [opcode_of_rType_row h, funct_of_rType_row h]

end RTypeRow

end Sys2Proof

namespace Sys2Proof.Machine

/-- Committing a register result is the whole of what the spec says of it: value, pc and frame. -/
theorem registerResult_commitReg (s : State) (r : RegIdx) (v : Word) :
    RegisterResult s (s.commitReg r v) r v := by
  refine ⟨State.commitReg_pc s r v, ?written, fun q hq => ?others, fun a => ?data,
    State.commitReg_image s r v, State.commitReg_config s r v⟩
  case written =>
    by_cases hr : r = 0
    · subst hr
      rfl
    · rw [State.readReg_commitReg, if_pos ⟨rfl, hr⟩, if_neg hr]
  case others => rw [State.readReg_commitReg, if_neg fun h => hq h.1]
  case data => rw [State.commitReg_dmem]

theorem exec_add (rd rs rt : RegIdx) (s : State) :
    exec (.add rd rs rt) s = .next (s.commitReg rd (s.readReg rs + s.readReg rt)) := rfl

theorem exec_and (rd rs rt : RegIdx) (s : State) :
    exec (.and rd rs rt) s = .next (s.commitReg rd (s.readReg rs &&& s.readReg rt)) := rfl

theorem exec_slt (rd rs rt : RegIdx) (s : State) :
    exec (.slt rd rs rt) s = .next (s.commitReg rd (setLessThan (s.readReg rs) (s.readReg rt))) := rfl

end Sys2Proof.Machine
end

section
/-! PROOFS. The R-type ALU's obligations (41_rtype_alu.md). -/

namespace Sys2Proof.Machine

/-- Settles O18: the row's selectors name ADD, and ADD commits the word sum, which is the sum of the
unsigned readings modulo 2^32. -/
theorem addWritesWrappingSum : Obligations.AddWritesWrappingSum := by
  refine ⟨fun w hrow => ⟨?decodes, ?bundle⟩, fun rd rs rt s => ⟨_, exec_add rd rs rt s, ?result⟩⟩
  case decodes => exact decode_of_rType_row (funct := 0x20#6) hrow
  case bundle => exact controlUnit_of_rType_row (funct := 0x20#6) hrow
  case result =>
    rw [← BitVec.add_def]
    exact registerResult_commitReg s rd _

/-- Settles O19: the row's selectors name AND, and AND commits the bitwise AND. -/
theorem andWritesBitwiseAnd : Obligations.AndWritesBitwiseAnd := by
  refine ⟨fun w hrow => ⟨?decodes, ?bundle⟩, fun rd rs rt s => ⟨_, exec_and rd rs rt s, ?result⟩⟩
  case decodes => exact decode_of_rType_row (funct := 0x24#6) hrow
  case bundle => exact controlUnit_of_rType_row (funct := 0x24#6) hrow
  case result => exact registerResult_commitReg s rd _

/-- Settles O20: the row's selectors name SLT, and SLT commits `setLessThan`, the comparison of the
two's-complement readings. -/
theorem sltWritesSignedComparison : Obligations.SltWritesSignedComparison := by
  refine ⟨fun w hrow => ⟨?decodes, ?bundle⟩, fun rd rs rt s => ⟨_, exec_slt rd rs rt s, ?result⟩⟩
  case decodes => exact decode_of_rType_row (funct := 0x2A#6) hrow
  case bundle => exact controlUnit_of_rType_row (funct := 0x2A#6) hrow
  case result => exact registerResult_commitReg s rd (setLessThan (s.readReg rs) (s.readReg rt))

end Sys2Proof.Machine
end

section
/-! PROOFS. What a word of an I-type row selects (30_encoding.md R57), and what the instructions that commit
a register result from an immediate leave (42_itype_alu.md R110 to R112). -/

namespace Sys2Proof

section ITypeRow
variable {w : Word} {opcode : BitVec 6} (h : w &&& 0xFC000000#32 = opcode.zeroExtend 32 <<< 26)
include h

theorem opcode_of_iType_row : w.extractLsb 31 26 = opcode := by
  have hsame : ∀ o : BitVec 6, (o.zeroExtend 32 <<< 26).extractLsb 31 26 = o := by decide
  exact (extractLsb_of_row h (by decide)).trans (hsame opcode)

/-- The decoder reads off the row's selector and the word's own fields, whatever they hold. -/
theorem decode_of_iType_row : decode w = decodeFields { fieldsOf w with opcode := opcode } := by
  have hfields : fieldsOf w = { fieldsOf w with opcode := w.extractLsb 31 26 } := rfl
  rw [decode, hfields, opcode_of_iType_row h]

theorem controlUnit_of_iType_row (funct : BitVec 6) :
    Machine.controlUnit (w.extractLsb 31 26) funct = Machine.controlUnit opcode funct := by
  rw [opcode_of_iType_row h]

end ITypeRow

/-- LUI's ignored field is encoded as zero (30_encoding.md R60, 42_itype_alu.md R111). -/
theorem encode_lui_rs (rt : RegIdx) (imm : Imm) : (encode (.lui rt imm)).extractLsb 25 21 = 0#5 :=
  extractLsb_of_row (Laws.RowPattern.encodeI_rs_zero 0x0F#6 rt imm) (by decide)

end Sys2Proof

namespace Sys2Proof.Machine

/-- The word sum with the sign-extended immediate is the sum of the signed readings modulo 2^32. -/
theorem add_sext32 (a : Word) (imm : Imm) : a + sext32 imm = BitVec.ofInt 32 (a.toInt + imm.toInt) := by
  rw [BitVec.ofInt_add, BitVec.ofInt_toInt, ← sext32_toInt imm, BitVec.ofInt_toInt]

theorem zext32_eq_ofNat (imm : Imm) : zext32 imm = BitVec.ofNat 32 imm.toNat :=
  (BitVec.ofNat_toNat 32 imm).symm

theorem upperImm_eq_ofNat (imm : Imm) : upperImm imm = BitVec.ofNat 32 (imm.toNat * 2 ^ 16) := by
  rw [← upperImm_toNat, BitVec.ofNat_toNat, BitVec.setWidth_eq]

theorem exec_addi (rt rs : RegIdx) (imm : Imm) (s : State) :
    exec (.addi rt rs imm) s = .next (s.commitReg rt (s.readReg rs + sext32 imm)) := rfl

theorem exec_lui (rt : RegIdx) (imm : Imm) (s : State) :
    exec (.lui rt imm) s = .next (s.commitReg rt (upperImm imm)) := rfl

theorem exec_ori (rt rs : RegIdx) (imm : Imm) (s : State) :
    exec (.ori rt rs imm) s = .next (s.commitReg rt (s.readReg rs ||| zext32 imm)) := rfl

end Sys2Proof.Machine
end

section
/-! PROOFS. The I-type ALU's obligations (42_itype_alu.md). -/

namespace Sys2Proof.Machine

/-- Settles O21: the row's opcode names ADDI, and ADDI commits the sum with the sign-extended immediate. -/
theorem addiAddsSignExtendedImmediate : Obligations.AddiAddsSignExtendedImmediate := by
  refine ⟨fun w hrow => ⟨?decodes, ?bundle⟩,
    fun rt rs imm s => ⟨_, exec_addi rt rs imm s, ?result⟩⟩
  case decodes => exact decode_of_iType_row (opcode := 0x08#6) hrow
  case bundle => exact controlUnit_of_iType_row (opcode := 0x08#6) hrow _
  case result =>
    rw [← add_sext32]
    exact registerResult_commitReg s rt _

/-- Settles O22: the row's opcode names LUI whatever rs holds, the encoder writes zero there, and LUI commits
the immediate shifted to the upper half. -/
theorem luiLoadsUpperHalf : Obligations.LuiLoadsUpperHalf := by
  refine ⟨fun w hrow => ⟨?decodes, ?bundle⟩, encode_lui_rs,
    fun rt imm s => ⟨_, exec_lui rt imm s, ?result⟩⟩
  case decodes => exact decode_of_iType_row (opcode := 0x0F#6) hrow
  case bundle => exact controlUnit_of_iType_row (opcode := 0x0F#6) hrow _
  case result =>
    rw [← upperImm_eq_ofNat]
    exact registerResult_commitReg s rt _

/-- Settles O23: the row's opcode names ORI, and ORI commits the bitwise OR with the zero-extended
immediate. -/
theorem oriOrsZeroExtendedImmediate : Obligations.OriOrsZeroExtendedImmediate := by
  refine ⟨fun w hrow => ⟨?decodes, ?bundle⟩,
    fun rt rs imm s => ⟨_, exec_ori rt rs imm s, ?result⟩⟩
  case decodes => exact decode_of_iType_row (opcode := 0x0D#6) hrow
  case bundle => exact controlUnit_of_iType_row (opcode := 0x0D#6) hrow _
  case result =>
    rw [← zext32_eq_ofNat]
    exact registerResult_commitReg s rt _

end Sys2Proof.Machine
end

section
/-! PROOFS. The encoder's two formats and the fields of a word are inverse to each other, and the decoder read
row by row of the opcode map (30_encoding.md R51 to R60). -/

namespace Sys2Proof

/-- The R-type format puts its operands where the decoder takes them from (30_encoding.md R52). -/
theorem fieldsOf_encodeR (rs rt rd : RegIdx) (funct : BitVec 6) :
    (fieldsOf (encodeR rs rt rd funct)).rs = rs ∧ (fieldsOf (encodeR rs rt rd funct)).rt = rt ∧
      (fieldsOf (encodeR rs rt rd funct)).rd = rd := by
  refine ⟨?_, ?_, ?_⟩ <;> apply BitVec.eq_of_getLsbD_eq <;> intro k hk <;> interval_cases k <;>
    simp [fieldsOf, encodeR]

/-- The I-type format puts its operands where the decoder takes them from (30_encoding.md R53). -/
theorem fieldsOf_encodeI (opcode : BitVec 6) (rs rt : RegIdx) (imm : Imm) :
    (fieldsOf (encodeI opcode rs rt imm)).rs = rs ∧ (fieldsOf (encodeI opcode rs rt imm)).rt = rt ∧
      (fieldsOf (encodeI opcode rs rt imm)).immediate = imm := by
  refine ⟨?_, ?_, ?_⟩ <;> apply BitVec.eq_of_getLsbD_eq <;> intro k hk <;> interval_cases k <;>
    simp [fieldsOf, encodeI]

section FieldsToWord
variable (w : Word)

/-- The mask of the R-type rows covers the two selectors. -/
theorem and_rType_mask : w &&& 0xFC00003F#32 =
    (fieldsOf w).opcode.zeroExtend 32 <<< 26 ||| (fieldsOf w).funct.zeroExtend 32 := by
  apply Laws.RowPattern.bits_of_row; intro k hk; interval_cases k <;> simp [fieldsOf]

/-- The mask of the I-type rows covers the opcode. -/
theorem and_iType_mask : w &&& 0xFC000000#32 = (fieldsOf w).opcode.zeroExtend 32 <<< 26 := by
  apply Laws.RowPattern.bits_of_row; intro k hk; interval_cases k <;> simp [fieldsOf]

/-- The R-type format rebuilds a word but for its opcode, which is 0 in the format, and its shamt. -/
theorem opcode_or_encodeR_fieldsOf :
    (fieldsOf w).opcode.zeroExtend 32 <<< 26 |||
        encodeR (fieldsOf w).rs (fieldsOf w).rt (fieldsOf w).rd (fieldsOf w).funct =
      w &&& ~~~ 0x000007C0#32 := by
  apply BitVec.eq_of_getLsbD_eq; intro k hk; interval_cases k <;> simp [fieldsOf, encodeR]

/-- The I-type format rebuilds every word. -/
theorem encodeI_fieldsOf :
    encodeI (fieldsOf w).opcode (fieldsOf w).rs (fieldsOf w).rt (fieldsOf w).immediate = w := by
  apply BitVec.eq_of_getLsbD_eq; intro k hk; interval_cases k <;> simp [fieldsOf, encodeI]

/-- With the rs field left zero, the I-type format rebuilds every word but for that field. -/
theorem encodeI_fieldsOf_rs_zero :
    encodeI (fieldsOf w).opcode 0#5 (fieldsOf w).rt (fieldsOf w).immediate = w &&& ~~~ 0x03E00000#32 := by
  apply BitVec.eq_of_getLsbD_eq; intro k hk; interval_cases k <;> simp [fieldsOf, encodeI]

variable {w}

/-- The converse of `opcode_of_rType_row` and `funct_of_rType_row`. -/
theorem rType_row_of_selectors {funct : BitVec 6} (hopcode : (fieldsOf w).opcode = 0x00#6)
    (hfunct : (fieldsOf w).funct = funct) : w &&& 0xFC00003F#32 = funct.zeroExtend 32 := by
  rw [and_rType_mask, hopcode, hfunct]
  exact BitVec.zero_or

/-- The converse of `opcode_of_iType_row`. -/
theorem iType_row_of_opcode {opcode : BitVec 6} (hopcode : (fieldsOf w).opcode = opcode) :
    w &&& 0xFC000000#32 = opcode.zeroExtend 32 <<< 26 := by
  rw [and_iType_mask, hopcode]

end FieldsToWord

/-- The instruction of a mnemonic whose operands are a word's fields: the row of the opcode map as the decoder
reads it (30_encoding.md R57). -/
def Mnemonic.instr : Mnemonic → Fields → Instr
  | .ADD, f => .add f.rd f.rs f.rt
  | .AND, f => .and f.rd f.rs f.rt
  | .SLT, f => .slt f.rd f.rs f.rt
  | .ADDI, f => .addi f.rt f.rs f.immediate
  | .LUI, f => .lui f.rt f.immediate
  | .ORI, f => .ori f.rt f.rs f.immediate
  | .LW, f => .lw f.rt f.rs f.immediate
  | .SW, f => .sw f.rt f.rs f.immediate
  | .BEQ, f => .beq f.rs f.rt f.immediate

@[simp] theorem mnemonic_instr (m : Mnemonic) (f : Fields) : (m.instr f).mnemonic = m := by
  cases m <;> rfl

/-- A word of a row decodes to the row's instruction of its fields. -/
theorem decode_of_matches {w : Word} {m : Mnemonic} (h : (opcodeRow m).matches w) :
    decode w = .ok (m.instr (fieldsOf w)) := by
  cases m
  case ADD => exact decode_of_rType_row (funct := 0x20#6) h
  case AND => exact decode_of_rType_row (funct := 0x24#6) h
  case SLT => exact decode_of_rType_row (funct := 0x2A#6) h
  case ADDI => exact decode_of_iType_row (opcode := 0x08#6) h
  case LUI => exact decode_of_iType_row (opcode := 0x0F#6) h
  case ORI => exact decode_of_iType_row (opcode := 0x0D#6) h
  case LW => exact decode_of_iType_row (opcode := 0x23#6) h
  case SW => exact decode_of_iType_row (opcode := 0x2B#6) h
  case BEQ => exact decode_of_iType_row (opcode := 0x04#6) h

/-- What decodes is of the row of its mnemonic: the decoder tested the selectors the row's mask covers. -/
theorem matches_of_decode_ok {w : Word} {i : Instr} (h : decode w = .ok i) :
    (opcodeRow i.mnemonic).matches w := by
  unfold decode decodeFields at h
  split_ifs at h with hzero hadd hand hslt haddi hlui hori hlw hsw hbeq <;> cases h
  · exact rType_row_of_selectors (funct := 0x20#6) hzero hadd
  · exact rType_row_of_selectors (funct := 0x24#6) hzero hand
  · exact rType_row_of_selectors (funct := 0x2A#6) hzero hslt
  · exact iType_row_of_opcode (opcode := 0x08#6) haddi
  · exact iType_row_of_opcode (opcode := 0x0F#6) hlui
  · exact iType_row_of_opcode (opcode := 0x0D#6) hori
  · exact iType_row_of_opcode (opcode := 0x23#6) hlw
  · exact iType_row_of_opcode (opcode := 0x2B#6) hsw
  · exact iType_row_of_opcode (opcode := 0x04#6) hbeq

/-- A word of no row is rejected (30_encoding.md R58). -/
theorem decode_error_of_no_match {w : Word} (h : ∀ m, ¬ (opcodeRow m).matches w) :
    ∃ r, decode w = .error r := by
  cases hw : decode w with
  | ok i => exact absurd (matches_of_decode_ok hw) (h i.mnemonic)
  | error r => exact ⟨r, rfl⟩

/-- The decoder, once and for all: the instruction of the row the word matches, with the word's fields. -/
theorem decode_eq_ok_iff {w : Word} {i : Instr} :
    decode w = .ok i ↔ (opcodeRow i.mnemonic).matches w ∧ i = i.mnemonic.instr (fieldsOf w) := by
  constructor
  · intro h
    have hrow := matches_of_decode_ok h
    have hi := h.symm.trans (decode_of_matches hrow)
    injection hi with hi
    exact ⟨hrow, hi⟩
  · rintro ⟨hrow, hi⟩
    rw [decode_of_matches hrow, ← hi]

/-- The encoder writes an instruction's own row, its ignored bits zero (30_encoding.md R57, R60). -/
theorem encode_matches_ignored_zero (i : Instr) : Laws.RowPattern.Statement i := by
  cases i
  case add rd rs rt => exact Laws.RowPattern.add rd rs rt
  case and rd rs rt => exact Laws.RowPattern.and rd rs rt
  case slt rd rs rt => exact Laws.RowPattern.slt rd rs rt
  case addi rt rs imm => exact Laws.RowPattern.addi rt rs imm
  case lui rt imm => exact Laws.RowPattern.lui rt imm
  case ori rt rs imm => exact Laws.RowPattern.ori rt rs imm
  case lw rt rs imm => exact Laws.RowPattern.lw rt rs imm
  case sw rt rs imm => exact Laws.RowPattern.sw rt rs imm
  case beq rs rt offset => exact Laws.RowPattern.beq rs rt offset

/-- The operands an encoder writes are the operands the row's instruction reads back. -/
theorem instr_fieldsOf_encode (i : Instr) : i.mnemonic.instr (fieldsOf (encode i)) = i := by
  cases i <;> simp [Instr.mnemonic, Mnemonic.instr, encode, fieldsOf_encodeR, fieldsOf_encodeI]

theorem decode_encode (i : Instr) : decode (encode i) = .ok i :=
  decode_eq_ok_iff.mpr ⟨(encode_matches_ignored_zero i).1, (instr_fieldsOf_encode i).symm⟩

/-- Encoding the instruction of an R-type row clears the word's shamt. -/
theorem encodeR_of_rType_row {w : Word} {funct : BitVec 6} (h : w &&& 0xFC00003F#32 = funct.zeroExtend 32) :
    encodeR (fieldsOf w).rs (fieldsOf w).rt (fieldsOf w).rd funct = w &&& ~~~ 0x000007C0#32 := by
  have hopcode : (fieldsOf w).opcode = 0x00#6 := opcode_of_rType_row h
  have hfunct : (fieldsOf w).funct = funct := funct_of_rType_row h
  rw [← opcode_or_encodeR_fieldsOf, hopcode, hfunct]
  exact BitVec.zero_or.symm

/-- Encoding the instruction of an I-type row that uses rs gives the word, of which it ignores no bit. -/
theorem encodeI_of_iType_row {w : Word} {opcode : BitVec 6}
    (h : w &&& 0xFC000000#32 = opcode.zeroExtend 32 <<< 26) :
    encodeI opcode (fieldsOf w).rs (fieldsOf w).rt (fieldsOf w).immediate = w &&& ~~~ 0#32 := by
  have hopcode : (fieldsOf w).opcode = opcode := opcode_of_iType_row h
  rw [← hopcode, encodeI_fieldsOf]
  exact BitVec.and_allOnes.symm

theorem encode_instr_of_matches {w : Word} {m : Mnemonic} (h : (opcodeRow m).matches w) :
    encode (m.instr (fieldsOf w)) = w &&& ~~~ (opcodeRow m).ignored := by
  cases m
  case ADD => exact encodeR_of_rType_row (funct := 0x20#6) h
  case AND => exact encodeR_of_rType_row (funct := 0x24#6) h
  case SLT => exact encodeR_of_rType_row (funct := 0x2A#6) h
  case LUI =>
    have hopcode : (fieldsOf w).opcode = 0x0F#6 := opcode_of_iType_row (opcode := 0x0F#6) h
    have hword := encodeI_fieldsOf_rs_zero w
    rw [hopcode] at hword
    exact hword
  case ADDI => exact encodeI_of_iType_row (opcode := 0x08#6) h
  case ORI => exact encodeI_of_iType_row (opcode := 0x0D#6) h
  case LW => exact encodeI_of_iType_row (opcode := 0x23#6) h
  case SW => exact encodeI_of_iType_row (opcode := 0x2B#6) h
  case BEQ => exact encodeI_of_iType_row (opcode := 0x04#6) h

end Sys2Proof
end

section
/-! PROOFS. The encoding's obligations on the opcode map and the encoder (30_encoding.md). -/

namespace Sys2Proof.Machine

/-- Settles O6: the encoder's word matches the row of its instruction, and the row's instruction reads the
operands back. -/
theorem decodeOfEncodeIsIdentity : Obligations.DecodeOfEncodeIsIdentity := decode_encode

/-- Settles O3: a word that matches a row decodes to its instruction and back, so two rows of one word name
the same mnemonic. -/
theorem decoderFollowsOpcodeMap : Obligations.DecoderFollowsOpcodeMap := by
  refine ⟨fun w m => ⟨fun hrow => ⟨_, decode_of_matches hrow, mnemonic_instr m _⟩, ?matched⟩,
    fun w m n hm hn => ?disjoint, fun w => decode_error_of_no_match⟩
  case matched =>
    rintro ⟨i, hi, rfl⟩
    exact matches_of_decode_ok hi
  case disjoint =>
    have hsame := (decode_of_matches hm).symm.trans (decode_of_matches hn)
    injection hsame with hsame
    simpa using congrArg Instr.mnemonic hsame

/-- Settles O7: a decoded word is of the instruction's row with its own fields as operands, and encoding those
clears the row's ignored bits. -/
theorem encodeOfDecodeClearsIgnoredBits : Obligations.EncodeOfDecodeClearsIgnoredBits := by
  intro w i h
  obtain ⟨hrow, hi⟩ := decode_eq_ok_iff.mp h
  calc encode i = encode (i.mnemonic.instr (fieldsOf w)) := congrArg encode hi
    _ = w &&& ~~~ (opcodeRow i.mnemonic).ignored := encode_instr_of_matches hrow

end Sys2Proof.Machine
end

section
/-! PROOFS. The machine invariant along steps, and what load and reset leave (10_state.md R25,
20_memory.md R38, 60_exceptions.md R144). -/

namespace Sys2Proof.Machine

section KeepsInv
variable {i : Instr} {s t : State} (h : exec i s = .next t)
include h

theorem exec_keeps_config : t.config = s.config := by
  obtain ⟨r, v, -, rfl, -⟩ | ⟨rt, rs, imm, -, -, rfl⟩ | ⟨rs, rt, offset, -, rfl⟩ := exec_next h
  · exact State.commitReg_config s r v
  · rfl
  · split <;> rfl

theorem exec_keeps_slot_zero : t.regs[0] = s.regs[0] := by
  obtain ⟨r, v, -, rfl, -⟩ | ⟨rt, rs, imm, -, -, rfl⟩ | ⟨rs, rt, offset, -, rfl⟩ := exec_next h
  · exact State.writeReg_slot_zero s r v
  · rfl
  · split <;> rfl

/-- Data memory after an instruction is as before, or with one word written at an address that exists. -/
theorem exec_dmem : t.dmem = s.dmem ∨ ∃ a v, s.dataAddressExists a ∧ t.dmem = s.dmem.write a.toNat v := by
  obtain ⟨r, v, -, rfl, -⟩ | ⟨rt, rs, imm, -, ha, rfl⟩ | ⟨rs, rt, offset, -, rfl⟩ := exec_next h
  · exact .inl (State.commitReg_dmem s r v)
  · exact .inr ⟨_, _, ha, rfl⟩
  · exact .inl (by split <;> rfl)

/-- Field by field: sizes, image and slot 0 are kept, and a store keeps the memory's form and bound. -/
theorem exec_keeps_machineInv (hinv : MachineInv s) : MachineInv t := by
  obtain ⟨hsizes, himage, hwf, hbelow, hslot⟩ := hinv
  unfold MachineInv
  rw [exec_keeps_config h, exec_keeps_image h, exec_keeps_slot_zero h]
  refine ⟨hsizes, himage, ?form, ?bound, hslot⟩
  case form =>
    obtain hsame | ⟨a, v, -, hstore⟩ := exec_dmem h
    · rwa [hsame]
    · rw [hstore]
      exact Memory.write_wf hwf _ v
  case bound =>
    obtain hsame | ⟨a, v, ha, hstore⟩ := exec_dmem h
    · rwa [hsame]
    · rw [hstore]
      exact Memory.write_below hbelow ha v

end KeepsInv

/-- A launch in its ranges starts from a state that has the invariant: register 0 takes zero whatever is
supplied. -/
theorem machineInv_init {l : Launch} (h : l.valid) : MachineInv (State.init l) := by
  obtain ⟨hsizes, himage, hwf, hbelow⟩ := h
  exact ⟨hsizes, himage, hwf, hbelow, Vector.getElem_set_self (by decide)⟩

/-- Load, once and for all: a well-formed image starts the machine, every other is rejected. -/
theorem load_eq_started_iff {l : Launch} {words : List Int} {s : State} :
    load l words = .started s ↔ imageWellFormed l.config words ∧
      s = State.init { l with image := words.map (BitVec.ofInt 32) } := by
  unfold load
  split
  case isTrue h =>
    exact ⟨fun hs => ⟨h, (LoadResult.started.inj hs).symm⟩, fun hs => congrArg _ hs.2.symm⟩
  case isFalse h => exact iff_of_false nofun fun hs => h hs.1

theorem load_eq_rejected_iff {l : Launch} {words : List Int} :
    load l words = .rejected .malformedImage ↔ ¬ imageWellFormed l.config words := by
  unfold load
  split
  case isTrue h => exact iff_of_false nofun (not_not_intro h)
  case isFalse h => exact iff_of_true rfl h

/-- The words in range are the unsigned readings of the patterns they become. -/
theorem map_toNat_map_ofInt {words : List Int} (h : ∀ w ∈ words, 0 ≤ w ∧ w < 2 ^ 32) :
    (words.map (BitVec.ofInt 32)).map (fun w => (w.toNat : Int)) = words := by
  rw [List.map_map]
  refine (List.map_congr_left fun w hw => ?_).trans (List.map_id words)
  obtain ⟨hlo, hhi⟩ := h w hw
  simp only [Function.comp_apply, BitVec.toNat_ofInt, id_eq]
  omega

/-- After reset every register but 0 holds the launch's value, and register 0 zero (10_state.md R25). -/
theorem State.readReg_init (l : Launch) {r : RegIdx} (h : r ≠ 0) :
    (State.init l).readReg r = l.initRegs[r.toNat]'(r.isLt) := by
  have hr : 0 ≠ r.toNat := fun h0 => h (BitVec.eq_of_toNat_eq h0.symm)
  rw [State.readReg, if_neg h]
  exact Vector.getElem_set_ne (by decide) r.isLt hr

end Sys2Proof.Machine
end

section
/-! PROOFS. The obligations on load, reset and the invariant (60_exceptions.md, 70_reset_and_hazards.md). -/

namespace Sys2Proof.Machine

/-- Settles O46: a step is `exec` of what it decoded, and `exec` keeps the invariant field by field. -/
theorem invariantKeptByEveryStep : Obligations.InvariantKeptByEveryStep := by
  intro s t hinv h
  obtain ⟨w, i, -, -, hi⟩ := step_next h
  exact exec_keeps_machineInv hi hinv

/-- Settles O47, by induction on the run: every step keeps the invariant, the image and the sizes. -/
theorem runsKeepInvariantAndProgram : Obligations.RunsKeepInvariantAndProgram := by
  intro n
  induction n with
  | zero =>
    rintro s t hinv rfl
    exact ⟨hinv, rfl, rfl⟩
  | succ n ih =>
    intro s t hinv h
    obtain ⟨u, hu, hrun⟩ := runsTo_succ.mp h
    obtain ⟨hinv', himage, hconfig⟩ := ih u t (invariantKeptByEveryStep s u hinv hu) hrun
    obtain ⟨w, i, -, -, hi⟩ := step_next hu
    exact ⟨hinv', himage.trans (exec_keeps_image hi), hconfig.trans (exec_keeps_config hi)⟩

/-- Settles O44: every default of the launch is in its range. -/
theorem invariantHoldsAtReset : Obligations.InvariantHoldsAtReset :=
  machineInv_init (l := defaultLaunch) (by decide)

/-- Settles O45: a load that starts checked the image against the capacity, the other ranges are given. -/
theorem invariantHoldsAfterLoad : Obligations.InvariantHoldsAfterLoad := by
  intro l words s hsizes hwf hbelow h
  obtain ⟨himage, rfl⟩ := load_eq_started_iff.mp h
  refine machineInv_init ⟨hsizes, ?_, hwf, hbelow⟩
  rw [List.length_map]
  exact himage.1

/-- Settles O42: reset copies the launch, but for register 0; the defaults are read off `defaultLaunch`. -/
theorem resetLeavesLaunchValues : Obligations.ResetLeavesLaunchValues := by
  refine ⟨fun l => ⟨rfl, rfl, fun r => State.readReg_init l, fun _ => rfl, rfl, rfl⟩, rfl, fun r => ?zero,
    fun _ => rfl, rfl, rfl, rfl⟩
  case zero =>
    by_cases hr : r = 0
    · subst hr
      rfl
    · exact (State.readReg_init defaultLaunch hr).trans (Vector.getElem_replicate r.isLt)

/-- Settles O43: the load check is the negation of the two ways to be malformed, and what starts is the reset
of the launch with the image's patterns, whose unsigned readings are the integers supplied. -/
theorem loadRejectsExactlyMalformedImages : Obligations.LoadRejectsExactlyMalformedImages := by
  refine fun l words => ⟨?rejects, fun hlength hrange => ?starts⟩
  case rejects =>
    rw [load_eq_rejected_iff, not_and_or, not_le]
    refine or_congr_right ?_
    push Not
    exact exists_congr fun w => and_congr_right fun _ => by omega
  case starts =>
    exact ⟨_, load_eq_started_iff.mpr ⟨⟨hlength, hrange⟩, rfl⟩, map_toNat_map_ofInt hrange, rfl, rfl, rfl,
      fun r hr => State.readReg_init _ hr, fun _ => rfl⟩

end Sys2Proof.Machine
end

section
/-! PROOFS. What an assembled line reads back as (30_encoding.md R60 to R62). -/

namespace Sys2Proof

open Sys2Proof.Machine

/-- Every integer a signed immediate may be is the signed reading of the pattern it becomes. -/
theorem toInt_ofInt_of_signed {v : Int} (h : -32768 ≤ v ∧ v ≤ 32767) : (BitVec.ofInt 16 v).toInt = v :=
  BitVec.toInt_ofInt_eq_self (by decide) (by omega) (by omega)

/-- Every integer an unsigned immediate may be is the unsigned reading of the pattern it becomes. -/
theorem toNat_ofInt_of_unsigned {v : Int} (h : 0 ≤ v ∧ v ≤ 65535) :
    ((BitVec.ofInt 16 v).toNat : Int) = v := by
  rw [BitVec.toNat_ofInt]
  omega

theorem sext32_ofInt {v : Int} (h : -32768 ≤ v ∧ v ≤ 32767) :
    (sext32 (BitVec.ofInt 16 v)).toInt = v :=
  (sext32_toInt _).trans (toInt_ofInt_of_signed h)

theorem zext32_ofInt {v : Int} (h : 0 ≤ v ∧ v ≤ 65535) :
    ((zext32 (BitVec.ofInt 16 v)).toNat : Int) = v := by
  rw [zext32_toNat, toNat_ofInt_of_unsigned h]

theorem upperImm_ofInt {v : Int} (h : 0 ≤ v ∧ v ≤ 65535) :
    ((upperImm (BitVec.ofInt 16 v)).toNat : Int) = v * 2 ^ 16 := by
  rw [upperImm_toNat, Nat.cast_mul, toNat_ofInt_of_unsigned h]
  rfl

section OperandChecks
variable {a b c : AsmReg} {v : Int}

theorem three_registers_inRange_iff : (a.inRange && b.inRange && c.inRange) = true ↔
    a.Legal ∧ b.Legal ∧ c.Legal := by
  simp [AsmReg.inRange_iff_legal, and_assoc]

theorem two_registers_signedImm_inRange_iff : (a.inRange && b.inRange && signedImmInRange v) = true ↔
    a.Legal ∧ b.Legal ∧ -32768 ≤ v ∧ v ≤ 32767 := by
  simp [AsmReg.inRange_iff_legal, signedImmInRange_iff, and_assoc]

theorem two_registers_unsignedImm_inRange_iff : (a.inRange && b.inRange && unsignedImmInRange v) = true ↔
    a.Legal ∧ b.Legal ∧ 0 ≤ v ∧ v ≤ 65535 := by
  simp [AsmReg.inRange_iff_legal, unsignedImmInRange_iff, and_assoc]

theorem register_unsignedImm_inRange_iff : (a.inRange && unsignedImmInRange v) = true ↔
    a.Legal ∧ 0 ≤ v ∧ v ≤ 65535 := by
  simp [AsmReg.inRange_iff_legal, unsignedImmInRange_iff]

end OperandChecks

/-- A line assembles as `AssemblesTo` says if its check decides the ranges and its instruction reads as it
should: the round trip and the encoder's zeros are the same for every line. -/
theorem assemblesTo_of_toInstr {pc : Nat} {line : AsmLine} {inRange : Prop} {reads : Instr → Prop}
    (hrange : line.wellFormed pc = true ↔ inRange) (hreads : inRange → reads (line.toInstr pc)) :
    AssemblesTo pc line inRange reads := by
  refine ⟨fun h => ?assembled, fun h => if_neg fun hwf => h (hrange.mp hwf)⟩
  case assembled =>
    exact ⟨_, _, assemble_eq_some.mpr ⟨hrange.mpr h, rfl⟩, decode_encode _, hreads h,
      (encode_matches_ignored_zero _).2⟩

/-- A branch offset of a label in reach, added to pc + 1, is the label's address modulo 2^32. -/
theorem branchTarget_label {pc address : Nat}
    (h : -32768 ≤ (address : Int) - (pc + 1) ∧ (address : Int) - (pc + 1) ≤ 32767) :
    branchTarget (BitVec.ofNat 32 pc) (BitVec.ofInt 16 ((address : Int) - (pc + 1))) =
      BitVec.ofNat 32 address := by
  have hoffset : sext32 (BitVec.ofInt 16 ((address : Int) - (pc + 1))) =
      BitVec.ofInt 32 ((address : Int) - (pc + 1)) := by
    rw [← BitVec.ofInt_toInt (x := sext32 _), sext32_ofInt h]
  calc branchTarget (BitVec.ofNat 32 pc) (BitVec.ofInt 16 ((address : Int) - (pc + 1)))
      = BitVec.ofInt 32 pc + BitVec.ofInt 32 1 + BitVec.ofInt 32 ((address : Int) - (pc + 1)) := by
        rw [branchTarget, hoffset, ← BitVec.ofInt_natCast]; rfl
    _ = BitVec.ofInt 32 (pc + 1 + ((address : Int) - (pc + 1))) := by rw [BitVec.ofInt_add, BitVec.ofInt_add]
    _ = BitVec.ofNat 32 address := by rw [add_sub_cancel, BitVec.ofInt_natCast]

end Sys2Proof
end

section
/-! PROOFS. The obligations on sample words and the assembler (30_encoding.md section 4). -/

namespace Sys2Proof.Machine

/-- Settles O8, form by form: the line's check decides the operand ranges, and operands in range become the
fields that denote them. -/
theorem assembledImmediatesKeepTheirValue : Obligations.AssembledImmediatesKeepTheirValue := by
  refine ⟨fun pc rd rs rt => ?add, fun pc rd rs rt => ?and, fun pc rd rs rt => ?slt,
    fun pc rt rs v => ?addi, fun pc rt rs v => ?ori, fun pc rt v => ?lui, fun pc rt rs v => ?lw,
    fun pc rt rs v => ?sw, fun pc rs rt v => ?offset, fun pc rs rt address => ?label⟩
  case add | and | slt =>
    refine assemblesTo_of_toInstr three_registers_inRange_iff fun ⟨hd, hs, ht⟩ => ⟨_, _, _, rfl, ?_, ?_, ?_⟩
    · exact AsmReg.denotes_number hd
    · exact AsmReg.denotes_number hs
    · exact AsmReg.denotes_number ht
  case addi | lw | sw | offset | label =>
    refine assemblesTo_of_toInstr two_registers_signedImm_inRange_iff fun ⟨ha, hb, hv⟩ =>
      ⟨_, _, _, rfl, ?_, ?_, sext32_ofInt hv⟩
    · exact AsmReg.denotes_number ha
    · exact AsmReg.denotes_number hb
  case ori =>
    exact assemblesTo_of_toInstr two_registers_unsignedImm_inRange_iff fun ⟨ht, hs, hv⟩ =>
      ⟨_, _, _, rfl, AsmReg.denotes_number ht, AsmReg.denotes_number hs, zext32_ofInt hv⟩
  case lui =>
    exact assemblesTo_of_toInstr register_unsignedImm_inRange_iff fun ⟨ht, hv⟩ =>
      ⟨_, _, rfl, AsmReg.denotes_number ht, upperImm_ofInt hv⟩

/-- Settles O9: what assembles is in reach, and a label in reach is the target of its own distance. -/
theorem branchToLabelReachesLabel : Obligations.BranchToLabelReachesLabel := by
  intro pc address rs rt w h
  obtain ⟨hwf, rfl⟩ := assemble_eq_some.mp h
  obtain ⟨-, -, hreach⟩ := two_registers_signedImm_inRange_iff.mp hwf
  exact ⟨_, decode_encode _, branchTarget_label hreach⟩

/-- Settles O1: ten fixed words through the decoder. -/
theorem sampleWordsDecode : Obligations.SampleWordsDecode := by
  unfold Obligations.SampleWordsDecode
  decide

end Sys2Proof.Machine
end

section
/-! PROOFS. What any bundle answers, and the bundles of the nine rows beside the instructions' own rules
(40_datapath_cycle.md R72 to R86). -/

namespace Sys2Proof.Machine

/-- The equality flag is the equality of the patterns (40_datapath_cycle.md R78). -/
theorem equalFlag_iff {a b : Word} : equalFlag a b = true ↔ a = b := by
  rw [equalFlag, beq_iff_eq]
  exact sub_eq_zero.trans eq_comm

/-- The ALU's SLT row and the rule of SLT compare the same two's-complement readings. -/
theorem alu_SLT (a b : Word) : alu .SLT a b = setLessThan a b := by
  simp only [alu, setLessThan, BitVec.slt, decide_eq_true_eq]

/-- `alu_result` of a bundle: the ALU on rs_data and the selected operand2 (40_datapath_cycle.md R76, R77). -/
def bundleAluResult (c : ControlSignals) (f : Fields) (s : State) : Word :=
  alu c.aluOp (s.readReg f.rs) (operand2 c.aluSrc (s.readReg f.rt) f.immediate)

/-- The state a bundle commits, given the write-back data: each enable tested on its own
(40_datapath_cycle.md R81 to R86). -/
def bundleResult (c : ControlSignals) (f : Fields) (s : State) (wbData : Word) : State :=
  { pc := nextPc c (equalFlag (s.readReg f.rs) (operand2 c.aluSrc (s.readReg f.rt) f.immediate))
      f.immediate s.pc
    regs := if c.regWrite then (s.writeReg (destination c f) wbData).regs else s.regs
    dmem := if c.memWrite then s.dmem.write (bundleAluResult c f s).toNat (s.readReg f.rt) else s.dmem
    image := s.image
    config := s.config }

section AnyBundle
variable (c : ControlSignals) (f : Fields) (s : State)

theorem readReg_bundleResult (wbData : Word) (r : RegIdx) :
    (bundleResult c f s wbData).readReg r =
      if c.regWrite = true ∧ r = destination c f ∧ r ≠ 0 then wbData else s.readReg r := by
  by_cases hw : c.regWrite = true
  · have hregs : (bundleResult c f s wbData).regs = (s.writeReg (destination c f) wbData).regs := if_pos hw
    rw [State.readReg_congr hregs, State.readReg_writeReg]
    exact if_congr ⟨fun ⟨hr, h0⟩ => ⟨hw, hr, hr ▸ h0⟩, fun ⟨_, hr, h0⟩ => ⟨hr, hr ▸ h0⟩⟩ rfl rfl
  · have hregs : (bundleResult c f s wbData).regs = s.regs := if_neg hw
    rw [State.readReg_congr hregs, if_neg fun h => hw h.1]

theorem dmem_read_bundleResult (wbData : Word) (a : Nat) :
    (bundleResult c f s wbData).dmem.read a =
      if c.memWrite = true ∧ a = (bundleAluResult c f s).toNat then s.readReg f.rt else s.dmem.read a := by
  by_cases hw : c.memWrite = true
  · simp only [bundleResult, hw, if_true, true_and, Memory.read_write]
  · simp only [bundleResult, hw, false_and, if_false, Bool.false_eq_true]

variable {c f s}

/-- The converse of `runBundle_next`: a bundle whose data address exists where an enable needs it raises
nothing. -/
theorem runBundle_eq_next {wbData : Word} (hwb : writeBackData c (bundleAluResult c f s) s = some wbData)
    (hwrite : c.memWrite = true → s.dataAddressExists (bundleAluResult c f s)) :
    runBundle c f s = .next (bundleResult c f s wbData) := by
  unfold bundleAluResult at hwb hwrite
  simp only [runBundle, hwb]
  exact if_neg fun h => h.2 (hwrite h.1)

/-- A bundle that accesses data at an address that does not exist raises DataAddressOutOfRange. -/
theorem runBundle_eq_fault (haccess : c.memToReg = true ∨ c.memWrite = true)
    (hna : ¬ s.dataAddressExists (bundleAluResult c f s)) :
    runBundle c f s = .fault (.dataAddressOutOfRange s.pc (bundleAluResult c f s)) := by
  unfold bundleAluResult at hna ⊢
  by_cases hload : c.memToReg = true
  · simp only [runBundle, writeBackData, if_pos hload, State.memRead_eq_none.mpr hna, raise_eq]
  · simp only [runBundle, writeBackData, if_neg hload]
    exact if_pos ⟨haccess.resolve_left hload, hna⟩

/-- The bundles that write a register alone are the commit of the write-back data to dest. -/
theorem runBundle_eq_commitReg {wbData : Word} (hregWrite : c.regWrite = true) (hbranch : c.branch = false)
    (hmemWrite : c.memWrite = false) (hwb : writeBackData c (bundleAluResult c f s) s = some wbData) :
    runBundle c f s = .next (s.commitReg (destination c f) wbData) := by
  rw [runBundle_eq_next hwb (by simp [hmemWrite])]
  simp only [bundleResult, hregWrite, hmemWrite, nextPc, hbranch, Bool.false_and, Bool.false_eq_true,
    if_false, if_true]
  unfold State.commitReg State.writeReg
  split <;> rfl

end AnyBundle

/-- BEQ, once and for all: a transfer to one of its two targets. -/
theorem exec_beq (rs rt : RegIdx) (offset : Imm) (s : State) :
    exec (.beq rs rt offset) s = .next (s.setPc
      (if s.readReg rs = s.readReg rt then branchTarget s.pc offset else s.pc + 1)) :=
  congrArg Host.Outcome.next (apply_ite s.setPc _ _ _).symm

/-- Each row's bundle does what the row's instruction says (40_datapath_cycle.md R73, R85). -/
theorem exec_instr_eq_runBundle (m : Mnemonic) (f : Fields) (s : State) :
    exec (m.instr f) s = runBundle (bundleOf m) f s := by
  cases m
  case SLT =>
    calc exec (.slt f.rd f.rs f.rt) s
        = .next (s.commitReg f.rd (alu .SLT (s.readReg f.rs) (s.readReg f.rt))) := by rw [exec_slt, alu_SLT]
      _ = runBundle (bundleOf .SLT) f s := Eq.symm <| runBundle_eq_commitReg rfl rfl rfl rfl
  case LW =>
    by_cases ha : s.dataAddressExists (effectiveAddress s f.rs f.immediate)
    · exact (exec_lw_eq_next.mpr ⟨ha, rfl⟩).trans
        (runBundle_eq_commitReg (c := bundleOf .LW) rfl rfl rfl (State.memRead_eq_some.mpr ⟨ha, rfl⟩)).symm
    · exact (exec_fault_of_not_dataAddressExists rfl ha).trans
        (runBundle_eq_fault (c := bundleOf .LW) (.inl rfl) ha).symm
  case SW =>
    by_cases ha : s.dataAddressExists (effectiveAddress s f.rs f.immediate)
    · exact (exec_sw_eq_next.mpr ⟨ha, rfl⟩).trans
        (runBundle_eq_next (c := bundleOf .SW) rfl fun _ => ha).symm
    · exact (exec_fault_of_not_dataAddressExists rfl ha).trans
        (runBundle_eq_fault (c := bundleOf .SW) (.inr rfl) ha).symm
  case BEQ =>
    calc exec (.beq f.rs f.rt f.immediate) s
        = .next (s.setPc (if s.readReg f.rs = s.readReg f.rt then branchTarget s.pc f.immediate
            else s.pc + 1)) := exec_beq f.rs f.rt f.immediate s
      _ = .next (bundleResult (bundleOf .BEQ) f s _) :=
        congrArg (fun t => Host.Outcome.next (s.setPc t)) (if_congr equalFlag_iff.symm rfl rfl)
      _ = runBundle (bundleOf .BEQ) f s := Eq.symm <| runBundle_eq_next rfl nofun
  all_goals exact Eq.symm <| runBundle_eq_commitReg rfl rfl rfl rfl

/-- The control unit's bundle for a word of a row is the row's. -/
theorem controlUnit_of_decode_ok {w : Word} {i : Instr} (h : decode w = .ok i) :
    controlUnit (fieldsOf w).opcode (fieldsOf w).funct = some (bundleOf i.mnemonic) := by
  rw [controlUnit, ← decode_mnemonic_eq_rowOf, h]
  rfl

/-- The cycle on a fetched word: the word's bundle, or UnsupportedInstruction. -/
theorem datapathCycle_of_decode_ok {s : State} {w : Word} {i : Instr} (hfetch : s.fetch = some w)
    (hdecode : decode w = .ok i) : datapathCycle s = runBundle (bundleOf i.mnemonic) (fieldsOf w) s := by
  simp only [datapathCycle, cycleOn, hfetch, controlUnit_of_decode_ok hdecode]

theorem datapathCycle_of_decode_error {s : State} {w : Word} {r : DecodeReject} (hfetch : s.fetch = some w)
    (hdecode : decode w = .error r) : datapathCycle s = .fault (.unsupportedInstruction s.pc w) := by
  simp only [datapathCycle, cycleOn, hfetch, controlUnit_eq_none_iff_decode_error.mpr ⟨r, hdecode⟩, raise_eq]

theorem step_of_fetch_none {s : State} (h : s.fetch = none) : step s = .fault (.fetchOutOfRange s.pc) := by
  simp only [step, h, raise_eq]

end Sys2Proof.Machine
end

section
/-! PROOFS. The datapath's obligations: control table, ALU, enables, and the two readings of the machine
(40_datapath_cycle.md). -/

namespace Sys2Proof.Machine

/-- Settles O16: the two write enables read off `bundleResult`; without its data address the cycle raises. -/
theorem enablesCommitIndependently : Obligations.EnablesCommitIndependently := by
  rintro c f s aluResult wbData halu hwb
  obtain rfl : aluResult = bundleAluResult c f s := halu
  refine ⟨fun haddress => ⟨bundleResult c f s wbData, runBundle_eq_next ?data (fun hw => haddress (.inr hw)),
      readReg_bundleResult c f s wbData, dmem_read_bundleResult c f s wbData, rfl, rfl⟩,
    fun haccess hna => ⟨_, runBundle_eq_fault haccess hna⟩⟩
  case data =>
    rw [hwb, writeBackData]
    by_cases hload : c.memToReg = true
    · rw [if_pos hload, if_pos hload]
      exact State.memRead_eq_some.mpr ⟨haddress (.inl hload), rfl⟩
    · rw [if_neg hload, if_neg hload]

/-- Settles O17: decoder and control unit reject the same words, and each row's bundle does what the row's
instruction does. -/
theorem instructionsRefineTheDatapath : Obligations.InstructionsRefineTheDatapath := by
  intro s
  cases hfetch : s.fetch with
  | none => rw [step_of_fetch_none hfetch, datapathCycle, hfetch]; rfl
  | some w =>
    cases hdecode : decode w with
    | error r => rw [step_of_decode_error hfetch hdecode, datapathCycle_of_decode_error hfetch hdecode]
    | ok i =>
      obtain ⟨-, hi⟩ := decode_eq_ok_iff.mp hdecode
      rw [step_of_decode_ok hfetch hdecode, datapathCycle_of_decode_ok hfetch hdecode,
        ← exec_instr_eq_runBundle, ← hi]

/-- Settles O11: where opcode is not 0 the table does not look at funct. -/
theorem controlTableRows : Obligations.ControlTableRows :=
  ⟨rfl, rfl, rfl, fun _ => ⟨rfl, rfl, rfl, rfl, rfl, rfl⟩⟩

/-- Settles O12: a bundle the control unit answers is one of the nine rows'. -/
theorem bundlesAreExclusive : Obligations.BundlesAreExclusive := by
  intro opcode funct c h
  obtain ⟨m, -, rfl⟩ := Option.map_eq_some_iff.mp h
  cases m <;> decide

/-- Settles O13, row by row of the ALU. -/
theorem aluResults : Obligations.AluResults := by
  refine fun a b => ⟨BitVec.toNat_add a b, fun _ _ => BitVec.getLsbD_and, fun _ _ => BitVec.getLsbD_or,
    ?slt, rfl, ?beq⟩
  case slt =>
    rw [alu_SLT, setLessThan]
    split <;> rfl
  case beq => rw [sub_eq_add_neg, BitVec.ofInt_add, BitVec.ofInt_neg, BitVec.ofInt_toInt, BitVec.ofInt_toInt,
    ← sub_eq_add_neg, alu]

/-- Settles O14: a difference of patterns is zero exactly for equal patterns. -/
theorem equalityFlagMeansSamePattern : Obligations.EqualityFlagMeansSamePattern := fun _ _ => equalFlag_iff

end Sys2Proof.Machine
end

section
/-! PROOFS. The frame of a store and of a transfer, what an instruction's outcome depends on, and that the
canonical form of data memory is determined by what it reads (10_state.md R17, R19, 43_load_store.md,
44_branch.md). -/

namespace Sys2Proof.Machine

/-- Storing a word is the whole of what the spec says of it: the word, pc and frame. -/
theorem storeResult_write (s : State) (a : Nat) (v : Word) :
    StoreResult s (State.advance { s with dmem := s.dmem.write a v }) a v :=
  ⟨rfl, fun _ => rfl, Memory.read_write_same s.dmem a v,
    fun _ hb => Memory.read_write_other s.dmem v hb, rfl, rfl⟩

/-- What the committed register reads depends on no other part of the state. -/
theorem State.readReg_commitReg_same (s : State) (r : RegIdx) (v : Word) :
    (s.commitReg r v).readReg r = if r = 0 then 0 else v := by
  obtain ⟨-, hwritten, -⟩ := registerResult_commitReg s r v
  exact hwritten

/-- Setting pc changes pc alone. -/
theorem transferResult_setPc (s : State) (target : Word) : TransferResult s (s.setPc target) target :=
  ⟨rfl, State.readReg_setPc s target, fun _ => rfl, rfl, rfl⟩

theorem sext32_eq_ofInt (imm : Imm) : sext32 imm = BitVec.ofInt 32 imm.toInt := by
  rw [← sext32_toInt, BitVec.ofInt_toInt]

/-- Only a taken BEQ sets pc to anything but pc + 1 (44_branch.md R131). -/
theorem exec_next_pc {i : Instr} {s t : State} (h : exec i s = .next t) :
    t.pc = s.pc + 1 ∨ ∃ rs rt offset, i = .beq rs rt offset ∧ s.readReg rs = s.readReg rt ∧
      t.pc = branchTarget s.pc offset := by
  obtain ⟨r, v, -, rfl, -⟩ | ⟨rt, rs, imm, -, -, rfl⟩ | ⟨rs, rt, offset, rfl, rfl⟩ := exec_next h
  · exact .inl (State.commitReg_pc s r v)
  · exact .inl rfl
  · by_cases heq : s.readReg rs = s.readReg rt
    · exact .inr ⟨rs, rt, offset, rfl, heq, congrArg State.pc (if_pos heq)⟩
    · exact .inl (congrArg State.pc (if_neg heq))

/-- An instruction writes no register but the one of its column "writes". -/
theorem exec_keeps_readReg {i : Instr} {s t : State} (h : exec i s = .next t) {r : RegIdx}
    (hr : i.writtenRegister ≠ some r) : t.readReg r = s.readReg r := by
  obtain ⟨q, v, hq, rfl, -⟩ | ⟨rt, rs, imm, -, -, rfl⟩ | ⟨rs, rt, offset, -, rfl⟩ := exec_next h
  · rw [State.readReg_commitReg, if_neg]
    rintro ⟨rfl, -⟩
    exact hr hq
  · rfl
  · split <;> rfl

/-- What two outcomes of one instruction share: pc, data memory and the register it writes. -/
def AgreeOn (i : Instr) (t v : State) : Prop :=
  v.pc = t.pc ∧ v.dmem = t.dmem ∧ ∀ r, i.writtenRegister = some r → v.readReg r = t.readReg r

section Noninterference
variable {i : Instr} {s u : State}

/-- Committing the same value to the same register. -/
theorem agreeOn_commitReg {r : RegIdx} (hw : i.writtenRegister = some r) (hpc : s.pc = u.pc)
    (hdmem : s.dmem = u.dmem) (v : Word) : AgreeOn i (s.commitReg r v) (u.commitReg r v) := by
  refine ⟨by simp [hpc], by simp [hdmem], fun q hq => ?_⟩
  obtain rfl : r = q := Option.some.inj (hw.symm.trans hq)
  rw [State.readReg_commitReg_same, State.readReg_commitReg_same]

variable (hregs : ∀ r ∈ i.usedRegisters, s.readReg r = u.readReg r) (hpc : s.pc = u.pc)
include hregs

theorem dataAddress_congr : i.dataAddress s = i.dataAddress u := by
  cases i
  case lw rt rs imm => exact congrArg some (effectiveAddress_congr (hregs rs (.head _)) imm)
  case sw rt rs imm => exact congrArg some (effectiveAddress_congr (hregs rs (.head _)) imm)
  all_goals rfl

variable (hdmem : s.dmem = u.dmem) (hconfig : s.config = u.config)
include hpc hdmem hconfig

theorem exec_congr {t : State} (h : exec i s = .next t) : ∃ v, exec i u = .next v ∧ AgreeOn i t v := by
  cases i
  case lw rt rs imm =>
    obtain ⟨ha, rfl⟩ := exec_lw_eq_next.mp h
    have hea : effectiveAddress s rs imm = effectiveAddress u rs imm :=
      Option.some.inj (dataAddress_congr hregs)
    rw [State.dataAddressExists, hea, hconfig] at ha
    refine ⟨_, exec_lw_eq_next.mpr ⟨ha, rfl⟩, ?_⟩
    rw [hea, hdmem]
    exact agreeOn_commitReg rfl hpc hdmem _
  case sw rt rs imm =>
    obtain ⟨ha, rfl⟩ := exec_sw_eq_next.mp h
    have hea : effectiveAddress s rs imm = effectiveAddress u rs imm :=
      Option.some.inj (dataAddress_congr hregs)
    have hrt : s.readReg rt = u.readReg rt := hregs rt (.tail _ (.head _))
    rw [State.dataAddressExists, hea, hconfig] at ha
    refine ⟨_, exec_sw_eq_next.mpr ⟨ha, rfl⟩, ?_, ?_, nofun⟩
    · rw [State.advance_pc, State.advance_pc, hpc]
    · rw [State.advance_dmem, State.advance_dmem, hea, hrt, hdmem]
  case beq rs rt offset =>
    rw [exec_beq] at h
    cases h
    have hrs : s.readReg rs = u.readReg rs := hregs rs (.head _)
    have hrt : s.readReg rt = u.readReg rt := hregs rt (.tail _ (.head _))
    refine ⟨_, exec_beq rs rt offset u, ?_, hdmem.symm, nofun⟩
    rw [State.setPc_pc, State.setPc_pc, hrs, hrt, hpc]
  case lui rt imm =>
    cases h
    exact ⟨_, rfl, agreeOn_commitReg rfl hpc hdmem _⟩
  case add | and | slt | addi | ori =>
    cases h
    simp only [Instr.usedRegisters, List.forall_mem_cons, List.not_mem_nil, false_implies, implies_true,
      and_true] at hregs
    refine ⟨_, rfl, ?_⟩
    simp only [hregs]
    exact agreeOn_commitReg rfl hpc hdmem _

omit hdmem in
theorem exec_fault_congr {f : Fault} (h : exec i s = .fault f) : exec i u = .fault f := by
  obtain ⟨a, hi, hna, rfl⟩ := exec_fault h
  rw [dataAddress_congr hregs] at hi
  rw [State.dataAddressExists, hconfig] at hna
  rw [hpc]
  exact exec_fault_of_not_dataAddressExists hi hna

end Noninterference

/-- In the canonical form a word other than the unlisted one is read exactly where its cell is listed. -/
theorem Memory.read_eq_iff_mem {m : Memory} (hm : m.wf) {a : Nat} {v : Word} (hv : v ≠ Memory.unlisted) :
    m.read a = v ↔ (a, v) ∈ m := by
  induction m with
  | nil => simp [Memory.read, hv.symm]
  | cons c rest ih =>
    obtain ⟨k, u⟩ := c
    obtain ⟨hsorted, hlisted⟩ := hm
    obtain ⟨hhead, hrest⟩ := List.pairwise_cons.mp hsorted
    have ih := ih ⟨hrest, fun c hc => hlisted c (by simp [hc])⟩
    by_cases hk : k = a
    · subst hk
      have hnot : (k, v) ∉ rest := fun hmem => Nat.lt_irrefl k (hhead _ hmem)
      simp [Memory.read, hnot, eq_comm]
    · simp [Memory.read, hk, Ne.symm hk, ih]

/-- Reading alike, two canonical memories list the same cells, and rising addresses leave them one order. -/
theorem Memory.eq_of_read_eq {m n : Memory} (hm : m.wf) (hn : n.wf) (h : ∀ a, m.read a = n.read a) :
    m = n := by
  have hirrefl : Std.Irrefl fun c d : Cell => c.1 < d.1 := ⟨fun c => Nat.lt_irrefl c.1⟩
  have hantisymm : Std.Antisymm fun c d : Cell => c.1 < d.1 :=
    ⟨fun _ _ hcd hdc => absurd hcd (Nat.lt_asymm hdc)⟩
  refine List.Pairwise.eq_of_mem_iff hm.1 hn.1 fun ⟨a, v⟩ => ?sameCells
  case sameCells =>
    by_cases hv : v = Memory.unlisted
    · exact iff_of_false (fun hmem => hm.2 _ hmem hv) fun hmem => hn.2 _ hmem hv
    · rw [← Memory.read_eq_iff_mem hm hv, h, Memory.read_eq_iff_mem hn hv]

end Sys2Proof.Machine
end

section
/-! PROOFS. The obligations on LW, SW, BEQ, the register-use table and data memory (10_state.md, 20_memory.md,
43_load_store.md, 44_branch.md, 60_exceptions.md). -/

namespace Sys2Proof.Machine

/-- Settles O24: the row's opcode names LW, and LW commits the word at its address where that exists. -/
theorem lwLoadsOrFaults : Obligations.LwLoadsOrFaults := by
  refine ⟨fun w hrow => ⟨?decodes, ?bundle⟩,
    fun rt rs imm s => ⟨add_sext32 _ imm, fun ha => ?loads, fun hna => ?faults⟩⟩
  case decodes => exact decode_of_iType_row (opcode := 0x23#6) hrow
  case bundle => exact controlUnit_of_iType_row (opcode := 0x23#6) hrow _
  case loads => exact ⟨_, exec_lw_eq_next.mpr ⟨ha, rfl⟩, registerResult_commitReg s rt _⟩
  case faults => exact exec_fault_of_not_dataAddressExists rfl (Nat.not_lt.mpr hna)

/-- Settles O25: the row's opcode names SW, and SW stores x[rt] at its address where that exists. -/
theorem swStoresOrFaults : Obligations.SwStoresOrFaults := by
  refine ⟨fun w hrow => ⟨?decodes, ?bundle⟩,
    fun rt rs imm s => ⟨add_sext32 _ imm, fun ha => ?stores, fun hna => ?faults⟩⟩
  case decodes => exact decode_of_iType_row (opcode := 0x2B#6) hrow
  case bundle => exact controlUnit_of_iType_row (opcode := 0x2B#6) hrow _
  case stores => exact ⟨_, exec_sw_eq_next.mpr ⟨ha, rfl⟩, storeResult_write s _ _⟩
  case faults => exact exec_fault_of_not_dataAddressExists rfl (Nat.not_lt.mpr hna)

/-- Settles O26: the row's opcode names BEQ, BEQ sets pc alone, and a pc beyond the image is met by the next
fetch. -/
theorem beqBranchesWhenEqual : Obligations.BeqBranchesWhenEqual := by
  refine ⟨fun w hrow => ⟨?decodes, ?bundle⟩,
    fun rs rt offset s => ⟨_, exec_beq rs rt offset s, ?transfers, fun hbeyond => ?nextFaults⟩⟩
  case decodes => exact decode_of_iType_row (opcode := 0x04#6) hrow
  case bundle => exact controlUnit_of_iType_row (opcode := 0x04#6) hrow _
  case transfers =>
    rw [← sext32_eq_ofInt]
    exact transferResult_setPc s _
  case nextFaults => exact step_of_fetch_none (State.fetch_eq_none.mpr hbeyond)

/-- Settles O27: the pc of each shape of a next state. -/
theorem onlyTakenBeqLeavesTheSequence : Obligations.OnlyTakenBeqLeavesTheSequence := fun _ _ _ h =>
  exec_next_pc h

/-- Settles O28: a data address that does not exist is the only thing that stops an instruction. -/
theorem noArithmeticFaults : Obligations.NoArithmeticFaults := by
  refine ⟨fun i s hi => exec_completes fun a ha => ?noAddress, fun i s f h => ?faults, exec_ne_refused⟩
  case noAddress => cases hi.symm.trans ha
  case faults =>
    obtain ⟨a, ha, -⟩ := exec_fault h
    exact ⟨a, ha⟩

/-- Settles O30: the frame of a register write, and the outcome from the table's sources alone. -/
theorem registerUseTable : Obligations.RegisterUseTable :=
  ⟨fun _ _ _ h _ hr => exec_keeps_readReg h hr, fun _ _ _ hregs hpc hdmem hconfig =>
    ⟨fun _ h => exec_fault_congr hregs hpc hconfig h, fun _ h => exec_congr hregs hpc hdmem hconfig h⟩⟩

/-- Settles O32: no other instruction touches data memory, and SW's store leaves every word but its own. -/
theorem onlySwChangesDataMemory : Obligations.OnlySwChangesDataMemory := by
  intro s t a h hchanged
  obtain ⟨w, i, hfetch, hdecode, hi⟩ := step_next h
  by_cases hsw : ∃ rt rs imm, i = .sw rt rs imm
  · obtain ⟨rt, rs, imm, rfl⟩ := hsw
    obtain ⟨-, rfl⟩ := exec_sw_eq_next.mp hi
    have ha : a = (effectiveAddress s rs imm).toNat :=
      by_contra fun hne => hchanged (Memory.read_write_other s.dmem _ hne)
    subst ha
    exact ⟨w, rt, rs, imm, hfetch, matches_of_decode_ok hdecode, hdecode, rfl,
      Memory.read_write_same s.dmem _ _⟩
  · refine absurd ?_ hchanged
    rw [exec_keeps_dmem hi fun rt rs imm hi' => hsw ⟨rt, rs, imm, hi'⟩]

/-- Settles O33: the address the store found still exists, and the word read there is the one written. -/
theorem storeThenLoadReturnsStoredWord : Obligations.StoreThenLoadReturnsStoredWord := by
  intro rt rs rt' rs' imm imm' s t hstore haddress
  obtain ⟨ha, ht⟩ := exec_sw_eq_next.mp hstore
  have hconfig : t.config = s.config := exec_keeps_config hstore
  have ha' : t.dataAddressExists (effectiveAddress t rs' imm') := by
    rw [State.dataAddressExists, haddress, hconfig]
    exact ha
  have hword : t.dmem.read (effectiveAddress t rs' imm').toNat = s.readReg rt := by
    rw [haddress, ht]
    exact Memory.read_write_same s.dmem _ _
  have hpc : t.pc = s.pc + 1 := ht ▸ rfl
  refine ⟨_, exec_lw_eq_next.mpr ⟨ha', rfl⟩, ?loaded, ?twoOn⟩
  case loaded => rw [hword, State.readReg_commitReg_same]
  case twoOn => rw [State.commitReg_pc, hpc]

/-- Settles O34: what is read at every address fixes which cells are listed, and in which order. -/
theorem canonicalMemoryIsUnique : Obligations.CanonicalMemoryIsUnique := fun _ _ => Memory.eq_of_read_eq

end Sys2Proof.Machine
end

section
/-! PROOFS. What a step answers, what the driver's step latches and reports, and that the ports do the same
(40_datapath_cycle.md R70, 60_exceptions.md R140 to R158). -/

namespace Sys2Proof.Machine

/-- No step refuses: `exec` refuses nothing, and fetch and decoder raise faults (60_exceptions.md R140). -/
theorem step_ne_refused (s : State) (r : Refusal) : step s ≠ .refused r := by
  intro h
  cases hfetch : s.fetch with
  | none => cases (step_of_fetch_none hfetch).symm.trans h
  | some w =>
    cases hdecode : decode w with
    | error e => cases (step_of_decode_error hfetch hdecode).symm.trans h
    | ok i => exact exec_ne_refused i s r ((step_of_decode_ok hfetch hdecode).symm.trans h)

theorem tick_of_step_next {s t : State} (h : step s = .next t) : tick s = (t, none) := by
  simp only [tick, h]

theorem tick_of_step_fault {s : State} {f : Fault} (h : step s = .fault f) : tick s = (s, some f) := by
  simp only [tick, h]

/-- The cycle on what the fetch port answers is the step (40_datapath_cycle.md R70, R85). -/
theorem cycleOn_imemAnswer (s : State) (p : PortsIn) : cycleOn (imemAnswer s p).fetched s = step s := by
  rw [imemAnswer_fetched]
  exact (instructionsRefineTheDatapath s).symm

section NoReset
variable (l : Launch) {s : State} {p : PortsIn} (hrst : p.rst = false)
include hrst

theorem risingEdge_imemAnswer : risingEdge l (imemAnswer s p) s = (tick s).1 := by
  simp only [risingEdge, imemAnswer_rst, hrst, Bool.false_eq_true, if_false, cycleOn_imemAnswer]
  cases h : step s with
  | next t => rw [tick_of_step_next h]
  | fault f => rw [tick_of_step_fault h]
  | refused r => exact absurd h (step_ne_refused s r)

theorem faultPort_imemAnswer : faultPort (imemAnswer s p) s = ((tick s).2.map Fault.code).getD 0 := by
  simp only [faultPort, imemAnswer_rst, hrst, Bool.false_eq_true, if_false, cycleOn_imemAnswer]
  cases h : step s with
  | next t => rw [tick_of_step_next h]; rfl
  | fault f => rw [tick_of_step_fault h]; rfl
  | refused r => exact absurd h (step_ne_refused s r)

end NoReset

/-- A debug read of data memory: the word, or 0 where the address does not exist (D21). -/
theorem memRead_getD_zero (s : State) (a : Word) :
    (s.memRead a).getD 0 = if a.toNat < s.config.dmemWords then s.dmem.read a.toNat else 0 := by
  unfold State.memRead
  split <;> rfl

/-- The self-branch: offset -1 from pc + 1, and register 0 equal to itself (70_reset_and_hazards.md R175). -/
theorem step_selfBranch {s : State} (h : s.fetch = some 0x1000FFFF#32) : step s = .next s := by
  have hdecode : decode 0x1000FFFF#32 = .ok (.beq 0 0 0xFFFF) := by decide
  have htarget : branchTarget s.pc 0xFFFF = s.pc := by
    have hoffset : 1 + sext32 0xFFFF = 0 := by decide
    rw [branchTarget, BitVec.add_assoc, hoffset, add_zero]
  rw [step_of_decode_ok h hdecode, exec_beq, if_pos rfl, htarget]
  rfl

end Sys2Proof.Machine
end

section
/-! PROOFS. The obligations on steps, faults, ports and inspection (40_datapath_cycle.md, 60_exceptions.md,
70_reset_and_hazards.md). -/

namespace Sys2Proof.Machine

/-- Settles O35: nothing stands around `exec` in a step. -/
theorem stepRunsDecodedInstruction : Obligations.StepRunsDecodedInstruction := fun _ _ _ hfetch hdecode =>
  step_of_decode_ok hfetch hdecode

/-- Settles O36: fetch, decoder and data access in the order of the datapath, each with its own condition. -/
theorem stepOutcomes : Obligations.StepOutcomes := by
  refine ⟨fun s hbeyond => step_of_fetch_none (State.fetch_eq_none.mpr hbeyond),
    fun s w hfetch hnone => ?unsupported,
    fun s w i hfetch hdecode => ⟨fun a hi hna => ?address, fun ha => ?completes⟩, step_ne_refused⟩
  case unsupported =>
    obtain ⟨r, hr⟩ := decode_error_of_no_match hnone
    exact step_of_decode_error hfetch hr
  case address =>
    rw [step_of_decode_ok hfetch hdecode]
    exact exec_fault_of_not_dataAddressExists hi (Nat.not_lt.mpr hna)
  case completes =>
    rw [step_of_decode_ok hfetch hdecode]
    exact exec_completes ha

/-- Settles O37, by induction on the number of steps: a faulting step leaves the state it faults in. -/
theorem faultCommitsNothingAndRecurs : Obligations.FaultCommitsNothingAndRecurs := by
  intro s f h n
  have htick := tick_of_step_fault h
  induction n with
  | zero => rfl
  | succ n ih => rw [ticks, htick, ih]; rfl

/-- Settles O38: the ports run the datapath's cycle on the fetched word, which is the step; the debug ports
are read off `outputs`. -/
theorem portsRealiseTheStep : Obligations.PortsRealiseTheStep :=
  ⟨fun l _ _ hrst => ⟨risingEdge_imemAnswer l hrst, faultPort_imemAnswer hrst⟩,
    fun _ _ _ hrst => ⟨if_pos hrst, if_pos hrst⟩,
    fun s p => ⟨rfl, rfl, rfl, memRead_getD_zero s p.dbgMemAddr⟩⟩

/-- Settles O39: the snapshot is built entry by entry from the register and data reads. -/
theorem inspectionShowsLatchedState : Obligations.InspectionShowsLatchedState := by
  refine fun s => ⟨rfl, fun r => ?registers, ?length, fun a ha => ?words⟩
  case registers => simp [inspect]
  case length => simp [inspect]
  case words => simp [inspect, ha]

/-- Settles O40, by induction on the number of steps: the self-branch steps to the state it is in. -/
theorem selfBranchSpinsForever : Obligations.SelfBranchSpinsForever := by
  intro n s hfetch
  induction n with
  | zero => rfl
  | succ n ih => exact runsTo_succ.mpr ⟨s, step_selfBranch hfetch, ih⟩

end Sys2Proof.Machine
end
